-- ==== Sys2Proof/Word.lean ====
section
/-!
DEFINITION. The widths of this hardware (spec/00_scope.md R5, R8): bytes, 16-bit words and 12-bit addresses.
All values are unsigned; a sum of `BitVec n` wraps, which is the rule's `trunc_n` (R8).
-/

namespace Sys2Proof

/-- A byte: a general register, a timer, a cell of memory, the literal NN (R5, R72). -/
abbrev Byte := BitVec 8

/-- A 16-bit word: an opcode, the index register, the program counter, a stack entry (R5, R70). -/
abbrev Word := BitVec 16

/-- The 12-bit literal NNN (R72). -/
abbrev Addr12 := BitVec 12

/-- The index of a general register V0..VF (R21). -/
abbrev Reg := Fin 16

/-- The index of VF, the register that doubles as the flag (R22). -/
abbrev regF : Reg := 15

end Sys2Proof
end

