-- ==== Sys2Proof/Syntax.lean ====
section
/-!
DEFINITION. The instructions: one constructor per row of spec/opcode_table.json (spec/30_encoding.md R74), in the
table's order. Operands are the fields of R72; their types admit exactly the values the encoding admits, and X = Y is
allowed everywhere (R73).
-/

namespace Sys2Proof

/-- The 34 instructions of R74. `x`, `y` are register indices, `n` the sprite height, `nn` the byte literal, `nnn` the
address literal. -/
inductive Instr where
  /-- 00E0 `CLS` (R190) -/
  | cls
  /-- 00EE `RET` (R100) -/
  | ret
  /-- 1NNN `JP NNN` (R101) -/
  | jp (nnn : Addr12)
  /-- 2NNN `CALL NNN` (R102) -/
  | call (nnn : Addr12)
  /-- 3XNN `SE VX, NN` (R103) -/
  | seImm (x : Reg) (nn : Byte)
  /-- 4XNN `SNE VX, NN` (R104) -/
  | sneImm (x : Reg) (nn : Byte)
  /-- 5XY0 `SE VX, VY` (R105) -/
  | seReg (x y : Reg)
  /-- 6XNN `LD VX, NN` (R132) -/
  | ldImm (x : Reg) (nn : Byte)
  /-- 7XNN `ADD VX, NN` (R133) -/
  | addImm (x : Reg) (nn : Byte)
  /-- 8XY0 `LD VX, VY` (R134) -/
  | ldReg (x y : Reg)
  /-- 8XY1 `OR VX, VY` (R135) -/
  | orReg (x y : Reg)
  /-- 8XY2 `AND VX, VY` (R136) -/
  | andReg (x y : Reg)
  /-- 8XY3 `XOR VX, VY` (R137) -/
  | xorReg (x y : Reg)
  /-- 8XY4 `ADD VX, VY` (R138) -/
  | addReg (x y : Reg)
  /-- 8XY5 `SUB VX, VY` (R139) -/
  | subReg (x y : Reg)
  /-- 8XY6 `SHR VX, VY` (R140) -/
  | shr (x y : Reg)
  /-- 8XY7 `SUBN VX, VY` (R141) -/
  | subn (x y : Reg)
  /-- 8XYE `SHL VX, VY` (R142) -/
  | shl (x y : Reg)
  /-- 9XY0 `SNE VX, VY` (R106) -/
  | sneReg (x y : Reg)
  /-- ANNN `LD I, NNN` (R160) -/
  | ldI (nnn : Addr12)
  /-- BNNN `JP V0, NNN` (R107) -/
  | jpV0 (nnn : Addr12)
  /-- CXNN `RND VX, NN` (R143) -/
  | rnd (x : Reg) (nn : Byte)
  /-- DXYN `DRW VX, VY, N` (R192) -/
  | drw (x y : Reg) (n : BitVec 4)
  /-- EX9E `SKP VX` (R213) -/
  | skp (x : Reg)
  /-- EXA1 `SKNP VX` (R214) -/
  | sknp (x : Reg)
  /-- FX07 `LD VX, DT` (R210) -/
  | ldVxDt (x : Reg)
  /-- FX0A `LD VX, K` (R215) -/
  | ldVxK (x : Reg)
  /-- FX15 `LD DT, VX` (R211) -/
  | ldDtVx (x : Reg)
  /-- FX18 `LD ST, VX` (R212) -/
  | ldStVx (x : Reg)
  /-- FX1E `ADD I, VX` (R161) -/
  | addIVx (x : Reg)
  /-- FX29 `LD F, VX` (R162) -/
  | ldFVx (x : Reg)
  /-- FX33 `LD B, VX` (R163) -/
  | ldBVx (x : Reg)
  /-- FX55 `LD [I], VX` (R164) -/
  | storeRegs (x : Reg)
  /-- FX65 `LD VX, [I]` (R165) -/
  | loadRegs (x : Reg)
deriving DecidableEq, Repr

end Sys2Proof
end

