-- ==== Sys2Proof/Decode.lean ====
section
/-!
DEFINITION. The decoder and the encoder, from the opcode map of spec/30_encoding.md R74 and the fields of R72.
An opcode is decoded by finding the one row with `op & mask = match`; a word no row matches is rejected by name (R75).
Decoding reads no state and no configuration (R83).
-/

namespace Sys2Proof

/-- Why the decoder refuses. -/
inductive Reject where
  /-- No row of R74 matches the word (R75). -/
  | unknownOpcode (op : Word)
  /-- Fewer than the two bytes every instruction has (R70). -/
  | truncated
deriving DecidableEq, Repr

/-- `X = op[11:8]` (R72). -/
def fieldX (op : Word) : Reg := ⟨(op.extractLsb' 8 4).toNat, (op.extractLsb' 8 4).isLt⟩

/-- `Y = op[7:4]` (R72). -/
def fieldY (op : Word) : Reg := ⟨(op.extractLsb' 4 4).toNat, (op.extractLsb' 4 4).isLt⟩

/-- `N = op[3:0]` (R72). -/
def fieldN (op : Word) : BitVec 4 := op.extractLsb' 0 4

/-- `NN = op[7:0]` (R72). -/
def fieldNN (op : Word) : Byte := op.extractLsb' 0 8

/-- `NNN = op[11:0]` (R72). -/
def fieldNNN (op : Word) : Addr12 := op.extractLsb' 0 12

/-- One row of the opcode map: its mask, its match and the instruction its fields give. -/
structure Row where
  /-- The fixed bits. -/
  mask : Word
  /-- Their values. -/
  value : Word
  /-- The instruction with the word's fields. -/
  build : Word → Instr

/-- `op & mask = match` (R74). -/
def Row.fits (r : Row) (op : Word) : Bool := op &&& r.mask == r.value

/-- Rows of R74 with top nibble 0 to 7. -/
def rowsLow : List Row :=
  [ ⟨0xFFFF, 0x00E0, fun _ => .cls⟩,
    ⟨0xFFFF, 0x00EE, fun _ => .ret⟩,
    ⟨0xF000, 0x1000, fun op => .jp (fieldNNN op)⟩,
    ⟨0xF000, 0x2000, fun op => .call (fieldNNN op)⟩,
    ⟨0xF000, 0x3000, fun op => .seImm (fieldX op) (fieldNN op)⟩,
    ⟨0xF000, 0x4000, fun op => .sneImm (fieldX op) (fieldNN op)⟩,
    ⟨0xF00F, 0x5000, fun op => .seReg (fieldX op) (fieldY op)⟩,
    ⟨0xF000, 0x6000, fun op => .ldImm (fieldX op) (fieldNN op)⟩,
    ⟨0xF000, 0x7000, fun op => .addImm (fieldX op) (fieldNN op)⟩ ]

/-- Rows of R74 with top nibble 8: the register-register family. -/
def rowsArith : List Row :=
  [ ⟨0xF00F, 0x8000, fun op => .ldReg (fieldX op) (fieldY op)⟩,
    ⟨0xF00F, 0x8001, fun op => .orReg (fieldX op) (fieldY op)⟩,
    ⟨0xF00F, 0x8002, fun op => .andReg (fieldX op) (fieldY op)⟩,
    ⟨0xF00F, 0x8003, fun op => .xorReg (fieldX op) (fieldY op)⟩,
    ⟨0xF00F, 0x8004, fun op => .addReg (fieldX op) (fieldY op)⟩,
    ⟨0xF00F, 0x8005, fun op => .subReg (fieldX op) (fieldY op)⟩,
    ⟨0xF00F, 0x8006, fun op => .shr (fieldX op) (fieldY op)⟩,
    ⟨0xF00F, 0x8007, fun op => .subn (fieldX op) (fieldY op)⟩,
    ⟨0xF00F, 0x800E, fun op => .shl (fieldX op) (fieldY op)⟩ ]

/-- Rows of R74 with top nibble 9 to E. -/
def rowsHigh : List Row :=
  [ ⟨0xF00F, 0x9000, fun op => .sneReg (fieldX op) (fieldY op)⟩,
    ⟨0xF000, 0xA000, fun op => .ldI (fieldNNN op)⟩,
    ⟨0xF000, 0xB000, fun op => .jpV0 (fieldNNN op)⟩,
    ⟨0xF000, 0xC000, fun op => .rnd (fieldX op) (fieldNN op)⟩,
    ⟨0xF000, 0xD000, fun op => .drw (fieldX op) (fieldY op) (fieldN op)⟩,
    ⟨0xF0FF, 0xE09E, fun op => .skp (fieldX op)⟩,
    ⟨0xF0FF, 0xE0A1, fun op => .sknp (fieldX op)⟩ ]

/-- Rows of R74 with top nibble F. -/
def rowsMisc : List Row :=
  [ ⟨0xF0FF, 0xF007, fun op => .ldVxDt (fieldX op)⟩,
    ⟨0xF0FF, 0xF00A, fun op => .ldVxK (fieldX op)⟩,
    ⟨0xF0FF, 0xF015, fun op => .ldDtVx (fieldX op)⟩,
    ⟨0xF0FF, 0xF018, fun op => .ldStVx (fieldX op)⟩,
    ⟨0xF0FF, 0xF01E, fun op => .addIVx (fieldX op)⟩,
    ⟨0xF0FF, 0xF029, fun op => .ldFVx (fieldX op)⟩,
    ⟨0xF0FF, 0xF033, fun op => .ldBVx (fieldX op)⟩,
    ⟨0xF0FF, 0xF055, fun op => .storeRegs (fieldX op)⟩,
    ⟨0xF0FF, 0xF065, fun op => .loadRegs (fieldX op)⟩ ]

/-- The opcode map of R74, all 34 rows. -/
def opcodeRows : List Row := rowsLow ++ rowsArith ++ rowsHigh ++ rowsMisc

/-- Decode one opcode (R74, R75, R83). -/
def decode (op : Word) : Except Reject Instr :=
  match opcodeRows.find? (fun r => r.fits op) with
  | some r => .ok (r.build op)
  | none => .error (.unknownOpcode op)

/-- The 16-bit word of two consecutive bytes, `(hi << 8) | lo`, the byte at the lower address in bits 15..8 (R53,
R71). -/
def wordOfBytes (hi lo : Byte) : Word := hi.setWidth 16 <<< 8 ||| lo.setWidth 16

/-- The byte of a word that is stored at the lower address (R53). -/
def highByte (w : Word) : Byte := w.extractLsb' 8 8

/-- The byte of a word that is stored at the higher address (R53). -/
def lowByte (w : Word) : Byte := w.extractLsb' 0 8

/-- Decode the instruction that a list of bytes begins with, as stored from its lowest address up. Total on any
bytes. -/
def decodeBytes : List Byte → Except Reject Instr
  | hi :: lo :: _ => decode (wordOfBytes hi lo)
  | _ => .error .truncated

/-- A word from its match and its fields: `X` in bits 11..8 and `NN` in bits 7..0. -/
def wordXNN (value : Nat) (x : Reg) (nn : Byte) : Word := BitVec.ofNat 16 (value + 256 * x.val + nn.toNat)

/-- A word from its match and its fields: `X` in bits 11..8 and `Y` in bits 7..4. -/
def wordXY (value : Nat) (x y : Reg) : Word := BitVec.ofNat 16 (value + 256 * x.val + 16 * y.val)

/-- A word from its match and its field `X` in bits 11..8. -/
def wordX (value : Nat) (x : Reg) : Word := BitVec.ofNat 16 (value + 256 * x.val)

/-- A word from its match and its field `NNN` in bits 11..0. -/
def wordNNN (value : Nat) (nnn : Addr12) : Word := BitVec.ofNat 16 (value + nnn.toNat)

/-- The opcode of an instruction, from the formats of R72 and the match column of R74. -/
def encode : Instr → Word
  | .cls => 0x00E0
  | .ret => 0x00EE
  | .jp nnn => wordNNN 0x1000 nnn
  | .call nnn => wordNNN 0x2000 nnn
  | .seImm x nn => wordXNN 0x3000 x nn
  | .sneImm x nn => wordXNN 0x4000 x nn
  | .seReg x y => wordXY 0x5000 x y
  | .ldImm x nn => wordXNN 0x6000 x nn
  | .addImm x nn => wordXNN 0x7000 x nn
  | .ldReg x y => wordXY 0x8000 x y
  | .orReg x y => wordXY 0x8001 x y
  | .andReg x y => wordXY 0x8002 x y
  | .xorReg x y => wordXY 0x8003 x y
  | .addReg x y => wordXY 0x8004 x y
  | .subReg x y => wordXY 0x8005 x y
  | .shr x y => wordXY 0x8006 x y
  | .subn x y => wordXY 0x8007 x y
  | .shl x y => wordXY 0x800E x y
  | .sneReg x y => wordXY 0x9000 x y
  | .ldI nnn => wordNNN 0xA000 nnn
  | .jpV0 nnn => wordNNN 0xB000 nnn
  | .rnd x nn => wordXNN 0xC000 x nn
  | .drw x y n => BitVec.ofNat 16 (0xD000 + 256 * x.val + 16 * y.val + n.toNat)
  | .skp x => wordX 0xE09E x
  | .sknp x => wordX 0xE0A1 x
  | .ldVxDt x => wordX 0xF007 x
  | .ldVxK x => wordX 0xF00A x
  | .ldDtVx x => wordX 0xF015 x
  | .ldStVx x => wordX 0xF018 x
  | .addIVx x => wordX 0xF01E x
  | .ldFVx x => wordX 0xF029 x
  | .ldBVx x => wordX 0xF033 x
  | .storeRegs x => wordX 0xF055 x
  | .loadRegs x => wordX 0xF065 x

/-- The two bytes of an instruction as memory holds them, lowest address first (R53, R70). -/
def encodeBytes (i : Instr) : List Byte := [highByte (encode i), lowByte (encode i)]

/-- The word of an instruction whose opcode-table bits are the low `nbits` bits of `w`; bits above are 0. -/
def tableWord (nbits w : Nat) : Word := BitVec.ofNat 16 (w % 2 ^ nbits)

/-- What the decoder reads from the instruction that spec/opcode_table.json would number `w`: the word is laid out as
memory holds it (big-endian, R53) and given to the byte decoder. -/
def decodeTableWord (nbits w : Nat) : Option Instr :=
  match decodeBytes [highByte (tableWord nbits w), lowByte (tableWord nbits w)] with
  | .ok i => some i
  | .error _ => none

end Sys2Proof
end

