-- ==== Sys2Proof/Config.lean ====
section
/-!
DEFINITION. What an implementation fixes (spec/00_scope.md R5, R6) and the one value the spec leaves open (R7).
-/

namespace Sys2Proof

/-- `MEM_SIZE`: bytes of memory (R5, R50). -/
abbrev memSize : Nat := 4096

/-- `LOAD_ADDR`: where a ROM is copied and where it starts (R5, R275). -/
abbrev loadAddr : Nat := 0x200

/-- `MAX_ROM` = `MEM_SIZE - LOAD_ADDR` (R5, R272). -/
abbrev maxRom : Nat := 3584

/-- `STACK_DEPTH`: entries of the call stack (R5, R27). -/
abbrev stackDepth : Nat := 16

/-- `DISP_W`: columns of the display (R5, R29). -/
abbrev dispW : Nat := 64

/-- `DISP_H`: rows of the display (R5, R29). -/
abbrev dispH : Nat := 32

/-- Bytes of one font glyph (R5, R57). -/
abbrev fontGlyphBytes : Nat := 5

/-- Bytes of the whole font, 16 glyphs (R57). -/
abbrev fontBytes : Nat := 80

/-- `Q_SHIFT_SRC`: which register 8XY6 and 8XYE shift (R6, R140, R142). -/
inductive ShiftSource where
  | vy
  | vx
deriving DecidableEq, Repr

/-- `Q_SPRITE_EDGE`: what DXYN does with pixels beyond the display edge (R6, R193). -/
inductive SpriteEdge where
  | wrap
  | clip
deriving DecidableEq, Repr

/-- The configuration record of R6. It is a parameter of the machine: no instruction, `load`, `reset` or `tick`
changes it (R33, R274). -/
structure Config where
  /-- `CYCLES_PER_TICK` (R237). -/
  cyclesPerTick : Nat
  /-- `FONT_BASE` (R57). -/
  fontBase : Nat
  /-- `Q_SHIFT_SRC`. -/
  shiftSource : ShiftSource
  /-- `Q_INDEX_INC`: whether FX55 and FX65 advance I (R164, R165). -/
  indexInc : Bool
  /-- `Q_SPRITE_EDGE`. -/
  spriteEdge : SpriteEdge
  /-- `Q_LOGIC_VF_RESET`: whether 8XY1, 8XY2, 8XY3 also clear VF (R135..R137). -/
  logicVfReset : Bool
  /-- `Q_JUMP_VX`: whether BNNN adds VX instead of V0 (R107). -/
  jumpVx : Bool
deriving DecidableEq, Repr

/-- The defaults of R6. -/
def Config.default : Config where
  cyclesPerTick := 10
  fontBase := 0x050
  shiftSource := .vy
  indexInc := true
  spriteEdge := .wrap
  logicVfReset := false
  jumpVx := false

/-- `RNG` (R7, R36, R143): the byte that the k-th draw gives. It has no body, so nothing can be proved of any value
of it and every statement holds for every draw. FREE VALUE, DESIGN CHOICE (log entry 3), safe. -/
opaque randomByte : Nat → Byte

end Sys2Proof
end

