-- ==== Sys2Proof/Machine/Flags.lean ====
section
/-!
DEFINITION. The flag values that instructions write to VF (spec/10_state.md R34, spec/41_arithmetic.md R130,
spec/43_display.md R192). There is no flags register (R34): each is the byte 0 or 1 that goes to V[15].
-/

namespace Sys2Proof.Machine

/-- The byte a flag is written as: 1 for true, 0 for false. -/
def flagByte (b : Bool) : Byte := if b then 1 else 0

/-- Carry of an addition: 1 when the exact sum exceeds 0xFF (R138). -/
def carryFlag (a b : Byte) : Byte := flagByte (decide (a.toNat + b.toNat > 0xFF))

/-- NOT borrow of `a - b`: 1 when `a ≥ b` (R139, R141). -/
def noBorrowFlag (a b : Byte) : Byte := flagByte (decide (a.toNat ≥ b.toNat))

/-- The bit a right shift by one moves out: bit 0 (R140). -/
def shiftRightFlag (s : Byte) : Byte := flagByte (s.getLsbD 0)

/-- The bit a left shift by one moves out: bit 7 (R142). -/
def shiftLeftFlag (s : Byte) : Byte := flagByte (s.getLsbD 7)

end Sys2Proof.Machine
end

