-- ==== Sys2Proof/Machine/Memory.lean ====
section
/-!
DEFINITION. Memory (spec/20_memory.md): the font, what an unlisted address reads as, and reads and writes of one byte
over the canonical list of cells. `fb` is always FONT_BASE, the one parameter that memory's initial content has.
-/

namespace Sys2Proof.Machine

/-- The 80 font bytes, glyph of digit d at offset 5*d, top row first (R57). -/
def fontGlyphs : List Byte :=
  [0xF0, 0x90, 0x90, 0x90, 0xF0,  0x20, 0x60, 0x20, 0x20, 0x70,
   0xF0, 0x10, 0xF0, 0x80, 0xF0,  0xF0, 0x10, 0xF0, 0x10, 0xF0] ++
  [0x90, 0x90, 0xF0, 0x10, 0x10,  0xF0, 0x80, 0xF0, 0x10, 0xF0,
   0xF0, 0x80, 0xF0, 0x90, 0xF0,  0xF0, 0x10, 0x20, 0x40, 0x40] ++
  [0xF0, 0x90, 0xF0, 0x90, 0xF0,  0xF0, 0x90, 0xF0, 0x10, 0xF0,
   0xF0, 0x90, 0xF0, 0x90, 0x90,  0xE0, 0x90, 0xE0, 0x90, 0xE0] ++
  [0xF0, 0x80, 0x80, 0x80, 0xF0,  0xE0, 0x90, 0x90, 0x90, 0xE0,
   0xF0, 0x80, 0xF0, 0x80, 0xF0,  0xF0, 0x80, 0xF0, 0x80, 0x80]

/-- What an unlisted address reads as: the font at FONT_BASE..FONT_BASE+79 and zero elsewhere (R57, R270, R271). -/
def initialByte (fb a : Nat) : Byte :=
  if fb ≤ a then fontGlyphs.getD (a - fb) 0 else 0

/-- The listed cell of an address, if there is one. -/
def memLookup : List Host.Cell → Nat → Option Byte
  | [], _ => none
  | (k, b) :: m, a => if k = a then some b else memLookup m a

/-- The byte at an address (R51). -/
def memGet (fb : Nat) (m : List Host.Cell) (a : Nat) : Byte := (memLookup m a).getD (initialByte fb a)

/-- Put a cell at its place in a rising list, over the cell its address has. -/
def memInsert : List Host.Cell → Nat → Byte → List Host.Cell
  | [], a, b => [(a, b)]
  | (k, c) :: m, a, b =>
    if a < k then (a, b) :: (k, c) :: m
    else if a = k then (a, b) :: m
    else (k, c) :: memInsert m a b

/-- Take an address's cell out of the list. -/
def memErase : List Host.Cell → Nat → List Host.Cell
  | [], _ => []
  | (k, c) :: m, a => if k = a then m else (k, c) :: memErase m a

/-- Write one byte (R51). Writing what an unlisted address reads as removes the cell, so equal memories are equal
lists. -/
def memSet (fb : Nat) (m : List Host.Cell) (a : Nat) (b : Byte) : List Host.Cell :=
  if b = initialByte fb a then memErase m a else memInsert m a b

/-- Write bytes at rising addresses from `a` on (R54). -/
def memSetList (fb : Nat) (m : List Host.Cell) (a : Nat) : List Byte → List Host.Cell
  | [] => m
  | b :: bs => memSetList fb (memSet fb m a b) (a + 1) bs

/-- The bytes at `a`, `a + 1`, ..., `a + n - 1` (R54). -/
def memGetList (fb : Nat) (m : List Host.Cell) (a : Nat) : Nat → List Byte
  | 0 => []
  | n + 1 => memGet fb m a :: memGetList fb m (a + 1) n

/-- The cells of a ROM image copied to address `a` of a memory that holds nothing but the font (R271). -/
def romCells (fb a : Nat) : List Byte → List Host.Cell
  | [] => []
  | b :: bs => if b = initialByte fb a then romCells fb (a + 1) bs else (a, b) :: romCells fb (a + 1) bs

/-- The canonical form from address `lo` up: addresses strictly rising and inside memory, no cell equal to what an
unlisted address reads as. -/
def memWfFrom (fb lo : Nat) : List Host.Cell → Bool
  | [] => true
  | (k, b) :: m => lo ≤ k && k < memSize && b != initialByte fb k && memWfFrom fb (k + 1) m

/-- The canonical form of memory. -/
def memWf (fb : Nat) (m : List Host.Cell) : Bool := memWfFrom fb 0 m

end Sys2Proof.Machine
end

