-- ==== Sys2Proof/Machine/State.lean ====
section
/-!
DEFINITION. The machine's state (spec/10_state.md R20), the ways a cycle stops (spec/60_exceptions.md R230) and the
state after `reset` (spec/70_reset_and_hazards.md R273).
-/

namespace Sys2Proof.Machine

/-- The four runtime faults of R230, each with the `pc` of the fault record `{kind, pc}` (R231): the address the
faulting instruction was fetched from. A fault ends the tick and has no other effect (R82, R234); every one of them is
the spec's own, so each is safe. -/
inductive Fault where
  /-- The fetched opcode matches no row of the opcode map. Raised by decode (R75, R81). Safe: the spec's own fault. -/
  | unknownOpcode (pc : Word)
  /-- A call with 16 return addresses on the stack. Raised by 2NNN (R102). Safe: the spec's own fault. -/
  | stackOverflow (pc : Word)
  /-- A return with an empty stack. Raised by 00EE (R100). Safe: the spec's own fault. -/
  | stackUnderflow (pc : Word)
  /-- A memory access outside [0, 4096) or a jump target at or beyond 4096. Raised by fetch (R81), DXYN (R192), FX33,
  FX55, FX65 (R163..R165) and BNNN (R107). Safe: the spec's own fault. -/
  | outOfBoundsAddress (pc : Word)
deriving DecidableEq, Repr

/-- Why an instruction is not run. Every instruction of the opcode table has a meaning, so no step answers with one. -/
inductive Refusal where
  /-- No meaning has been written for the instruction. Raised by no arm of `exec`. Safe: the machine stops. -/
  | notModelled (mnemonic : String)
deriving DecidableEq, Repr

/-- The state of R20, the configuration record beside it (R33, log entry 1), and two counters of the model's own:
`draws` (log entry 3) and `cyclesLeft` (log entry 2). -/
structure State where
  /-- The configuration record (00_scope R6); written by nothing (R33). -/
  cfg : Config
  /-- Memory: the cells that differ from the font-and-zero content of R57, addresses rising (R50; log entry 6). -/
  mem : List Host.Cell
  /-- V0..VF (R21). -/
  v : Vector Byte 16
  /-- The index register I (R24). -/
  i : Word
  /-- The program counter (R25). -/
  pc : Word
  /-- The stack depth SP, 0..16 (R27). -/
  sp : Fin 17
  /-- The stack entries S[0..15], the oldest first (R27). -/
  stack : Vector Word 16
  /-- The delay timer DT (R28). -/
  dt : Byte
  /-- The sound timer ST (R28). -/
  st : Byte
  /-- The display: row y, bit x is Pix(x, y) (R29; log entry 9). -/
  display : Vector (BitVec 64) 32
  /-- The input vector Key[0..15] (R30). -/
  keys : Vector Bool 16
  /-- The key-wait flag KW (R31). -/
  kw : Bool
  /-- ROMBUF, the last-loaded ROM (R32). -/
  romBuf : List Byte
  /-- The model's own: how many draws CXNN has made from the open RNG oracle (R7, R143). -/
  draws : Nat
  /-- The model's own: cycles still to run in the current tick, 0 between ticks (R237). -/
  cyclesLeft : Nat
deriving DecidableEq, Repr

/-- The Machine right after `reset()` with no ROM loaded yet (R273, and the `load`/`reset` column of R20): memory is
font and zeros, PC is 0x200, everything else zero, off or false. The configuration is R6's defaults (log entry 1); the
model's own counters stand at 0 (DESIGN CHOICE, log entries 2 and 3). -/
def State.reset : State where
  cfg := Config.default
  mem := []
  v := Vector.replicate 16 0
  i := 0
  pc := 0x0200
  sp := 0
  stack := Vector.replicate 16 0
  dt := 0
  st := 0
  display := Vector.replicate 32 0
  keys := Vector.replicate 16 false
  kw := false
  romBuf := []
  draws := 0
  cyclesLeft := 0

end Sys2Proof.Machine
end

