-- ==== Sys2Proof/Machine/Ops.lean ====
section
/-!
DEFINITION. The named operations over the state that every meaning is written with (the primitives of
spec/00_scope.md R9): registers, memory, stack, timers, display, raising a fault, and the parts of a cycle and a tick.
-/

namespace Sys2Proof.Machine

/-! ## One named update per component -/

/-- Replace the register file. -/
def State.withV (s : State) (v : Vector Byte 16) : State := { s with v := v }

/-- `I <- w` (R24). -/
def State.withI (s : State) (w : Word) : State := { s with i := w }

/-- `PC <- w` (R25). -/
def State.withPc (s : State) (w : Word) : State := { s with pc := w }

/-- Replace the depth and the entries of the call stack (R27). -/
def State.withStack (s : State) (sp : Fin 17) (st : Vector Word 16) : State := { s with sp := sp, stack := st }

/-- `DT <- b` (R28). -/
def State.withDt (s : State) (b : Byte) : State := { s with dt := b }

/-- `ST <- b` (R28). -/
def State.withSt (s : State) (b : Byte) : State := { s with st := b }

/-- Replace the display (R29). -/
def State.withDisplay (s : State) (d : Vector (BitVec 64) 32) : State := { s with display := d }

/-- `KW <- b` (R31). -/
def State.withKw (s : State) (b : Bool) : State := { s with kw := b }

/-- Replace memory's cells (R50). -/
def State.withMem (s : State) (m : List Host.Cell) : State := { s with mem := m }

/-- Replace the input vector (R30). -/
def State.withKeys (s : State) (k : Vector Bool 16) : State := { s with keys := k }

/-- Advance the model's own draw counter to `n` (log entry 3). -/
def State.withDraws (s : State) (n : Nat) : State := { s with draws := n }

/-- Set the model's own loop counter of the tick (log entry 2). -/
def State.withCyclesLeft (s : State) (n : Nat) : State := { s with cyclesLeft := n }

/-! ## Registers -/

/-- `V[x]` (R9, R21). -/
def State.getV (s : State) (x : Reg) : Byte := s.v[x]

/-- `V[x] <- b`, the whole byte (R23). -/
def State.setV (s : State) (x : Reg) (b : Byte) : State := s.withV (s.v.set x b)

/-- `V[x] <- b`, then `V[15] <- flag`: the result first and the flag last (R131). -/
def State.setVF (s : State) (x : Reg) (b flag : Byte) : State := (s.setV x b).setV regF flag

/-- `V[0], ..., V[n-1]`, for n ≤ 16 (FX55, R164). -/
def State.getVs (s : State) (n : Nat) : List Byte := s.v.toList.take n

/-- `V[k] <- bytes[k]` for rising k from `k` on, as long as bytes and registers last (FX65, R165). -/
def State.setVs (s : State) (k : Nat) : List Byte → State
  | [] => s
  | b :: bs => if h : k < 16 then (s.setV ⟨k, h⟩ b).setVs (k + 1) bs else s

/-- The address the current instruction was fetched from, `pc0` (R81): PC has been advanced by 2 since (log entry 8). -/
def State.pc0 (s : State) : Word := s.pc - 2

/-! ## Faults -/

/-- `raise Fault(kind)` inside an instruction (R82, R231): the cycle ends with the record `{kind, pc0}`. No other
effect: no register is saved, no mode changes, no vector is taken (R234). -/
def raise (kind : Word → Fault) (s : State) : Host.Outcome State Fault Refusal := .fault (kind s.pc0)

/-- The Machine after a cycle that raised a fault, from the state its instruction was dispatched in: nothing has been
written (R82) and PC is back at `pc0`. This is what the next tick resumes from (R235). -/
def State.afterFault (s : State) : State := s.withPc s.pc0

/-! ## Memory -/

/-- `CheckRange(a, n)`: the n bytes from `a` up lie inside memory; with n = 0 it always passes (R64; log entry 5). The
address is the exact integer (R65). -/
def checkRange (a n : Nat) : Bool := n == 0 || decide (a + n ≤ memSize)

/-- The byte at an address, `none` outside memory (R51, R52). -/
def State.memRead (s : State) (a : Nat) : Option Byte :=
  if a < memSize then some (memGet s.cfg.fontBase s.mem a) else none

/-- Read n bytes from `a` up after `CheckRange(a, n)`; `none` where the range does not fit (R54, R64). -/
def State.readBytes (s : State) (a n : Nat) : Option (List Byte) :=
  if checkRange a n then some (memGetList s.cfg.fontBase s.mem a n) else none

/-- Write bytes at `a`, `a + 1`, ... after checking the whole range; `none`, with nothing written, where it does not
fit (R54, R64). -/
def State.writeBytes (s : State) (a : Nat) (bs : List Byte) : Option State :=
  if checkRange a bs.length then some (s.withMem (memSetList s.cfg.fontBase s.mem a bs)) else none

/-! ## Call stack -/

/-- Push a return address (R27); `none` when 16 are held. -/
def State.push (s : State) (w : Word) : Option State :=
  if h : s.sp.val < 16 then
    some (s.withStack ⟨s.sp.val + 1, Nat.succ_lt_succ h⟩ (s.stack.set s.sp.val w h))
  else none

/-- Pop a return address, leaving the entry as it is (R27); `none` when the stack is empty. -/
def State.pop (s : State) : Option (Word × State) :=
  if h : 0 < s.sp.val then
    have hk : s.sp.val - 1 < 16 := Nat.sub_lt_right_of_lt_add h s.sp.isLt
    some (s.stack[s.sp.val - 1]'hk, s.withStack ⟨s.sp.val - 1, Nat.lt_succ_of_lt hk⟩ s.stack)
  else none

/-! ## Timers -/

/-- One decrement of one timer: a timer at 0 stays at 0 (R28, R238). -/
def timerTick (b : Byte) : Byte := if b = 0 then 0 else b - 1

/-- `TimerDecrement()` (R238). -/
def State.timerDecrement (s : State) : State := (s.withDt (timerTick s.dt)).withSt (timerTick s.st)

/-! ## Input -/

/-- `Key(k)` (R9, R30). -/
def State.key (s : State) (k : Fin 16) : Bool := s.keys[k]

/-- The lowest-numbered pressed key, if any is pressed (R215). -/
def State.lowestKey (s : State) : Option (Fin 16) := (List.finRange 16).find? (fun k => s.key k)

/-! ## Display -/

/-- The pixel at column x, row y of a display, `false` outside it (R29). -/
def pixelOf (d : Vector (BitVec 64) 32) (x y : Nat) : Bool :=
  if h : y < 32 then d[y].getLsbD x else false

/-- `Pix(x, y)` (R9, R29). -/
def State.pix (s : State) (x y : Nat) : Bool := pixelOf s.display x y

/-- `Pix(x, y) <- not Pix(x, y)`. -/
def flipPixel (d : Vector (BitVec 64) 32) (x y : Nat) : Vector (BitVec 64) 32 :=
  if h : y < 32 then d.set y (d[y] ^^^ BitVec.twoPow 64 x) else d

/-- `Place(x, y)` (R193): the display cell a sprite pixel falls on, `none` where clipping leaves it undrawn. -/
def place (edge : SpriteEdge) (x y : Nat) : Option (Nat × Nat) :=
  match edge with
  | .wrap => some (x % dispW, y % dispH)
  | .clip => if x < dispW ∧ y < dispH then some (x, y) else none

/-- One set sprite bit at (x, y) before the edge policy: XOR it onto the display and note whether it turned a pixel
off (R192). -/
def plot (edge : SpriteEdge) (x y : Nat) (acc : Vector (BitVec 64) 32 × Bool) : Vector (BitVec 64) 32 × Bool :=
  match place edge x y with
  | some (px, py) => (flipPixel acc.1 px py, acc.2 || pixelOf acc.1 px py)
  | none => acc

/-- The columns `cs` of one sprite row with its left end at (x0, y): column c is bit `7 - c` (R191, R192). -/
def drawCols (edge : SpriteEdge) (x0 y : Nat) (row : Byte) (acc : Vector (BitVec 64) 32 × Bool) :
    List Nat → Vector (BitVec 64) 32 × Bool
  | [] => acc
  | c :: cs => drawCols edge x0 y row (if row.getLsbD (7 - c) then plot edge (x0 + c) y acc else acc) cs

/-- The rows of a sprite, row 0 at `y`, each next one a row lower (R191, R192). -/
def drawRows (edge : SpriteEdge) (x0 y : Nat) (acc : Vector (BitVec 64) 32 × Bool) :
    List Byte → Vector (BitVec 64) 32 × Bool
  | [] => acc
  | row :: rows =>
    drawRows edge x0 (y + 1) (drawCols edge x0 y row acc [0, 1, 2, 3, 4, 5, 6, 7]) rows

/-- XOR a sprite onto a display with its top left corner at (x0, y0); the second component is the collision
(R192). -/
def drawSprite (edge : SpriteEdge) (x0 y0 : Nat) (rows : List Byte) (d : Vector (BitVec 64) 32) :
    Vector (BitVec 64) 32 × Bool :=
  drawRows edge x0 y0 (d, false) rows

/-! ## The parts of a cycle and of a tick -/

/-- `MemRead(pc0, 2)`: the big-endian opcode at PC, `none` when its second byte is outside memory (R71, R81). -/
def State.fetch (s : State) : Option Word :=
  match s.readBytes s.pc.toNat 2 with
  | some (hi :: lo :: _) => some (wordOfBytes hi lo)
  | _ => none

/-- `PC <- trunc_16(pc0 + 2)`, before dispatch (R81). -/
def State.advance (s : State) : State := s.withPc (s.pc + 2)

/-- `Skip()`: a further 2 (R108). -/
def State.skip (s : State) : State := s.withPc (s.pc + 2)

/-- A fetch outside memory: the fault names the address of the attempted fetch (R81, R231). -/
def fetchFault (s : State) : Host.Outcome State Fault Refusal := .fault (.outOfBoundsAddress s.pc)

/-- A word that decodes to no instruction; PC has been advanced (R75, R81). -/
def decodeFault (s : State) : Host.Outcome State Fault Refusal := raise .unknownOpcode s

/-- Where a tick begins (no cycles left of the one before): one timer decrement and a fresh budget of
`CYCLES_PER_TICK` cycles (R237; log entry 2). Inside a tick: nothing. -/
def State.enterTick (s : State) : State :=
  if s.cyclesLeft = 0 then s.timerDecrement.withCyclesLeft s.cfg.cyclesPerTick else s

/-- A cycle that ended well uses one of the tick's cycles (R237, R280). -/
def endCycle : Host.Outcome State Fault Refusal → Host.Outcome State Fault Refusal
  | .next s => .next (s.withCyclesLeft (s.cyclesLeft - 1))
  | .fault f => .fault f
  | .refused r => .refused r

/-- The state with a 16-bit word stored big-endian at an address, where both its bytes exist; used to place one
instruction for the next fetch. -/
def State.withWordAt (s : State) (a : Nat) (w : Word) : State :=
  match s.writeBytes a [highByte w, lowByte w] with
  | some t => t
  | none => s

end Sys2Proof.Machine
end

