-- ==== Sys2Proof/Machine/Operands.lean ====
section
/-!
DEFINITION. The operands an instruction computes beyond its plain fields: the shift source, the jump offset, the key
and digit a register names, the effective address and the decimal digits.
-/

namespace Sys2Proof.Machine

/-- The byte 8XY6 and 8XYE shift, by `Q_SHIFT_SRC` (R140, R142). -/
def State.shiftOperand (s : State) (x y : Reg) : Byte :=
  match s.cfg.shiftSource with
  | .vy => s.getV y
  | .vx => s.getV x

/-- The register BNNN adds, by `Q_JUMP_VX`: V0, or VX with X = NNN[11:8] (R107). -/
def State.jumpRegister (s : State) (nnn : Addr12) : Reg :=
  if s.cfg.jumpVx then ⟨(nnn.extractLsb' 8 4).toNat, (nnn.extractLsb' 8 4).isLt⟩ else 0

/-- The target of BNNN as an exact integer (R107). -/
def State.jumpTarget (s : State) (nnn : Addr12) : Nat := nnn.toNat + (s.getV (s.jumpRegister nnn)).toNat

/-- The low nibble of V[x]: the key or the digit it names (R162, R213, R214). -/
def State.nibbleOf (s : State) (x : Reg) : Fin 16 :=
  ⟨((s.getV x).extractLsb' 0 4).toNat, ((s.getV x).extractLsb' 0 4).isLt⟩

/-- The address of the glyph of the digit V[x] names (R57, R162). -/
def State.glyphAddr (s : State) (x : Reg) : Word :=
  BitVec.ofNat 16 (s.cfg.fontBase + fontGlyphBytes * (s.nibbleOf x).val)

/-- The effective address of byte 0 of an access through I, as an exact integer (R65). -/
def State.indexAddr (s : State) : Nat := s.i.toNat

/-- `I <- I + X + 1` when `Q_INDEX_INC`, else unchanged (R164, R165). -/
def State.bumpIndex (s : State) (x : Reg) : State :=
  if s.cfg.indexInc then s.withI (s.i + BitVec.ofNat 16 (x.val + 1)) else s

/-- The hundreds, tens and ones of a byte, in the order they are stored (R163). -/
def decimalDigits (b : Byte) : List Byte :=
  [BitVec.ofNat 8 (b.toNat / 100), BitVec.ofNat 8 (b.toNat / 10 % 10), BitVec.ofNat 8 (b.toNat % 10)]

end Sys2Proof.Machine
end

