-- ==== Sys2Proof/Machine/Arithmetic.lean ====
section
/-!
DEFINITION. Register arithmetic, logic, shifts and random (spec/41_arithmetic.md). Sources are read before any write,
the result goes to V[X] and the flag to V[15] last (R131); sums wrap modulo 256 (R130).
-/

namespace Sys2Proof.Machine

/-- 6XNN `LD VX, NN` (R132). -/
def execLdImm (x : Reg) (nn : Byte) (s : State) : Host.Outcome State Fault Refusal := .next (s.setV x nn)

/-- 7XNN `ADD VX, NN` (R133): no flag. -/
def execAddImm (x : Reg) (nn : Byte) (s : State) : Host.Outcome State Fault Refusal := .next (s.setV x (s.getV x + nn))

/-- 8XY0 `LD VX, VY` (R134). -/
def execLdReg (x y : Reg) (s : State) : Host.Outcome State Fault Refusal := .next (s.setV x (s.getV y))

/-- The result of a logic operation, and `VF <- 0` last under `Q_LOGIC_VF_RESET` (R135..R137). -/
def logicResult (x : Reg) (b : Byte) (s : State) : State :=
  if s.cfg.logicVfReset then s.setVF x b 0 else s.setV x b

/-- 8XY1 `OR VX, VY` (R135). -/
def execOrReg (x y : Reg) (s : State) : Host.Outcome State Fault Refusal :=
  .next (logicResult x (s.getV x ||| s.getV y) s)

/-- 8XY2 `AND VX, VY` (R136). -/
def execAndReg (x y : Reg) (s : State) : Host.Outcome State Fault Refusal :=
  .next (logicResult x (s.getV x &&& s.getV y) s)

/-- 8XY3 `XOR VX, VY` (R137). -/
def execXorReg (x y : Reg) (s : State) : Host.Outcome State Fault Refusal :=
  .next (logicResult x (s.getV x ^^^ s.getV y) s)

/-- 8XY4 `ADD VX, VY` (R138). -/
def execAddReg (x y : Reg) (s : State) : Host.Outcome State Fault Refusal :=
  .next (s.setVF x (s.getV x + s.getV y) (carryFlag (s.getV x) (s.getV y)))

/-- 8XY5 `SUB VX, VY` (R139). -/
def execSubReg (x y : Reg) (s : State) : Host.Outcome State Fault Refusal :=
  .next (s.setVF x (s.getV x - s.getV y) (noBorrowFlag (s.getV x) (s.getV y)))

/-- 8XY6 `SHR VX, VY` (R140). -/
def execShr (x y : Reg) (s : State) : Host.Outcome State Fault Refusal :=
  .next (s.setVF x (s.shiftOperand x y >>> 1) (shiftRightFlag (s.shiftOperand x y)))

/-- 8XY7 `SUBN VX, VY` (R141): VY minus VX. -/
def execSubn (x y : Reg) (s : State) : Host.Outcome State Fault Refusal :=
  .next (s.setVF x (s.getV y - s.getV x) (noBorrowFlag (s.getV y) (s.getV x)))

/-- 8XYE `SHL VX, VY` (R142). -/
def execShl (x y : Reg) (s : State) : Host.Outcome State Fault Refusal :=
  .next (s.setVF x (s.shiftOperand x y <<< 1) (shiftLeftFlag (s.shiftOperand x y)))

/-- CXNN `RND VX, NN` (R143): one draw from the open RNG oracle, a free value (log entry 3). -/
def execRnd (x : Reg) (nn : Byte) (s : State) : Host.Outcome State Fault Refusal :=
  .next ((s.setV x (randomByte s.draws &&& nn)).withDraws (s.draws + 1))

end Sys2Proof.Machine
end

