-- ==== Sys2Proof/Machine/ControlFlow.lean ====
section
/-!
DEFINITION. Control flow (spec/40_control_flow.md). On entry PC already equals pc0 + 2 (spec/30_encoding.md R81).
-/

namespace Sys2Proof.Machine

/-- Skip the next instruction where a condition holds (R103..R106, R108, R213, R214). -/
def skipIf (c : Bool) (s : State) : Host.Outcome State Fault Refusal := .next (if c then s.skip else s)

/-- 00EE `RET` (R100). -/
def execRet (s : State) : Host.Outcome State Fault Refusal :=
  match s.pop with
  | some (w, t) => .next (t.withPc w)
  | none => raise .stackUnderflow s

/-- 1NNN `JP NNN` (R101). -/
def execJp (nnn : Addr12) (s : State) : Host.Outcome State Fault Refusal := .next (s.withPc (nnn.setWidth 16))

/-- 2NNN `CALL NNN` (R102): the value pushed is PC, the address after the call. -/
def execCall (nnn : Addr12) (s : State) : Host.Outcome State Fault Refusal :=
  match s.push s.pc with
  | some t => .next (t.withPc (nnn.setWidth 16))
  | none => raise .stackOverflow s

/-- 3XNN `SE VX, NN` (R103). -/
def execSeImm (x : Reg) (nn : Byte) (s : State) : Host.Outcome State Fault Refusal := skipIf (s.getV x == nn) s

/-- 4XNN `SNE VX, NN` (R104). -/
def execSneImm (x : Reg) (nn : Byte) (s : State) : Host.Outcome State Fault Refusal := skipIf (s.getV x != nn) s

/-- 5XY0 `SE VX, VY` (R105). -/
def execSeReg (x y : Reg) (s : State) : Host.Outcome State Fault Refusal := skipIf (s.getV x == s.getV y) s

/-- 9XY0 `SNE VX, VY` (R106). -/
def execSneReg (x y : Reg) (s : State) : Host.Outcome State Fault Refusal := skipIf (s.getV x != s.getV y) s

/-- BNNN `JP V0, NNN` (R107): a target beyond memory faults at the jump itself. -/
def execJpV0 (nnn : Addr12) (s : State) : Host.Outcome State Fault Refusal :=
  if s.jumpTarget nnn < memSize then .next (s.withPc (BitVec.ofNat 16 (s.jumpTarget nnn)))
  else raise .outOfBoundsAddress s

end Sys2Proof.Machine
end

