-- ==== Sys2Proof/Machine/Display.lean ====
section
/-!
DEFINITION. Clearing the display and drawing a sprite (spec/43_display.md).
-/

namespace Sys2Proof.Machine

/-- A display with every pixel off (R190). -/
def blankDisplay : Vector (BitVec 64) 32 := Vector.replicate 32 0

/-- 00E0 `CLS` (R190): VF is unchanged. -/
def execCls (s : State) : Host.Outcome State Fault Refusal := .next (s.withDisplay blankDisplay)

/-- The column a sprite starts in: V[X] mod 64 (R192). -/
def State.spriteX (s : State) (x : Reg) : Nat := (s.getV x).toNat % dispW

/-- The row a sprite starts in: V[Y] mod 32 (R192). -/
def State.spriteY (s : State) (y : Reg) : Nat := (s.getV y).toNat % dispH

/-- The display and the collision that drawing `rows` at (V[X], V[Y]) gives (R192). -/
def State.drawn (s : State) (x y : Reg) (rows : List Byte) : Vector (BitVec 64) 32 × Bool :=
  drawSprite s.cfg.spriteEdge (s.spriteX x) (s.spriteY y) rows s.display

/-- DXYN `DRW VX, VY, N` (R192): the coordinates are read before VF is written, and VF is written last and always. -/
def execDrw (x y : Reg) (n : BitVec 4) (s : State) : Host.Outcome State Fault Refusal :=
  match s.readBytes s.indexAddr n.toNat with
  | some rows => .next ((s.withDisplay (s.drawn x y rows).1).setV regF (flagByte (s.drawn x y rows).2))
  | none => raise .outOfBoundsAddress s

end Sys2Proof.Machine
end

