-- ==== Sys2Proof/Machine/IndexMemory.lean ====
section
/-!
DEFINITION. The index register, the font, BCD and the register-block store and load (spec/42_index_and_memory.md).
Each checks its whole range before its first effect (spec/20_memory.md R64).
-/

namespace Sys2Proof.Machine

/-- ANNN `LD I, NNN` (R160). -/
def execLdI (nnn : Addr12) (s : State) : Host.Outcome State Fault Refusal := .next (s.withI (nnn.setWidth 16))

/-- FX1E `ADD I, VX` (R161): no fault and no flag. -/
def execAddIVx (x : Reg) (s : State) : Host.Outcome State Fault Refusal :=
  .next (s.withI (s.i + (s.getV x).setWidth 16))

/-- FX29 `LD F, VX` (R162). -/
def execLdFVx (x : Reg) (s : State) : Host.Outcome State Fault Refusal := .next (s.withI (s.glyphAddr x))

/-- FX33 `LD B, VX` (R163). -/
def execLdBVx (x : Reg) (s : State) : Host.Outcome State Fault Refusal :=
  match s.writeBytes s.indexAddr (decimalDigits (s.getV x)) with
  | some t => .next t
  | none => raise .outOfBoundsAddress s

/-- FX55 `LD [I], VX` (R164). -/
def execStoreRegs (x : Reg) (s : State) : Host.Outcome State Fault Refusal :=
  match s.writeBytes s.indexAddr (s.getVs (x.val + 1)) with
  | some t => .next (t.bumpIndex x)
  | none => raise .outOfBoundsAddress s

/-- FX65 `LD VX, [I]` (R165). -/
def execLoadRegs (x : Reg) (s : State) : Host.Outcome State Fault Refusal :=
  match s.readBytes s.indexAddr (x.val + 1) with
  | some bs => .next ((s.setVs 0 bs).bumpIndex x)
  | none => raise .outOfBoundsAddress s

end Sys2Proof.Machine
end

