-- ==== Sys2Proof/Machine/TimersInput.lean ====
section
/-!
DEFINITION. The timer and key instructions (spec/44_timers_and_input.md).
-/

namespace Sys2Proof.Machine

/-- EX9E `SKP VX` (R213). -/
def execSkp (x : Reg) (s : State) : Host.Outcome State Fault Refusal := skipIf (s.key (s.nibbleOf x)) s

/-- EXA1 `SKNP VX` (R214). -/
def execSknp (x : Reg) (s : State) : Host.Outcome State Fault Refusal := skipIf (!s.key (s.nibbleOf x)) s

/-- FX07 `LD VX, DT` (R210). -/
def execLdVxDt (x : Reg) (s : State) : Host.Outcome State Fault Refusal := .next (s.setV x s.dt)

/-- FX0A `LD VX, K` (R215): store the lowest pressed key, or stay on this instruction with KW set. -/
def execLdVxK (x : Reg) (s : State) : Host.Outcome State Fault Refusal :=
  match s.lowestKey with
  | some k => .next ((s.setV x (BitVec.ofNat 8 k.val)).withKw false)
  | none => .next ((s.withPc s.pc0).withKw true)

/-- FX15 `LD DT, VX` (R211). -/
def execLdDtVx (x : Reg) (s : State) : Host.Outcome State Fault Refusal := .next (s.withDt (s.getV x))

/-- FX18 `LD ST, VX` (R212). -/
def execLdStVx (x : Reg) (s : State) : Host.Outcome State Fault Refusal := .next (s.withSt (s.getV x))

end Sys2Proof.Machine
end

