-- ==== Sys2Proof/Machine/Step.lean ====
section
/-!
DEFINITION. One cycle (spec/30_encoding.md R81), one step of the machine, and the placing of one instruction for the
next fetch. A step is one cycle of a tick, the first cycle of a tick coming after that tick's timer decrement
(spec/60_exceptions.md R237; log entry 2).
-/

namespace Sys2Proof.Machine

/-- `Cycle()` (R81): fetch, advance PC by 2, decode, execute. -/
def cycle (s : State) : Host.Outcome State Fault Refusal :=
  match s.fetch with
  | none => fetchFault s
  | some op =>
    match decode op with
    | .error _ => decodeFault s.advance
    | .ok i => exec i s.advance

/-- One step: enter the tick where one begins, run one cycle, count it (R237). -/
def step (s : State) : Host.Outcome State Fault Refusal := endCycle (cycle s.enterTick)

/-- `s` with the instruction that spec/opcode_table.json would number `w` stored where the next step fetches, at PC
(log entry 7). -/
def State.withFetchWord (s : State) (nbits w : Nat) : State := s.withWordAt s.pc.toNat (tableWord nbits w)

end Sys2Proof.Machine
end

