-- ==== Sys2Proof/WellFormed.lean ====
section
/-!
DEFINITION. What a term must meet to be one of this hardware. An instruction's fields are typed at exactly the widths
of spec/30_encoding.md R72 and every value of every field is admitted (R73), so an `Instr` has nothing left to check;
the configuration record (spec/00_scope.md R6) and a ROM image (spec/70_reset_and_hazards.md R272) have bounds.
-/

namespace Sys2Proof

/-- Every `Instr` is well formed: its field types are the encoding's (R72) and X = Y is allowed (R73). -/
def Instr.wellFormed : Instr → Bool
  | .cls | .ret => true
  | .jp _ | .call _ | .ldI _ | .jpV0 _ => true
  | .seImm _ _ | .sneImm _ _ | .ldImm _ _ | .addImm _ _ | .rnd _ _ => true
  | .seReg _ _ | .sneReg _ _ | .ldReg _ _ | .orReg _ _ | .andReg _ _ | .xorReg _ _ => true
  | .addReg _ _ | .subReg _ _ | .shr _ _ | .subn _ _ | .shl _ _ => true
  | .drw _ _ _ => true
  | .skp _ | .sknp _ | .ldVxDt _ | .ldVxK _ | .ldDtVx _ | .ldStVx _ => true
  | .addIVx _ | .ldFVx _ | .ldBVx _ | .storeRegs _ | .loadRegs _ => true

/-- `CYCLES_PER_TICK` is at least 1 (R6). -/
def Config.cyclesOk (c : Config) : Bool := 1 ≤ c.cyclesPerTick

/-- The font lies inside the reserved region: `FONT_BASE + 80 ≤ 0x200` (R6). -/
def Config.fontOk (c : Config) : Bool := c.fontBase + fontBytes ≤ loadAddr

/-- The configuration record meets the bounds of R6. -/
def Config.wellFormed (c : Config) : Bool := c.cyclesOk && c.fontOk

/-- A ROM fits the memory beyond the load address (R272). -/
def romWellFormed (rom : List Byte) : Bool := rom.length ≤ maxRom

end Sys2Proof
end

