-- ==== Sys2Proof/Machine/Boundary.lean ====
section
/-!
DEFINITION. The host's operations on the Machine (spec/60_exceptions.md R237..R246, spec/70_reset_and_hazards.md
R270..R273). The host calls them one at a time, between ticks (R246); nothing else reaches the Machine.
-/

namespace Sys2Proof.Machine

/-- The error of `load` (R230, R272). -/
inductive LoadError where
  /-- The ROM has more than 3584 bytes. -/
  | romTooLarge
deriving DecidableEq, Repr

/-- A Machine just created with a configuration (R270): all zero but the font, PC at 0x0000, no ROM. -/
def created (cfg : Config) : State := { State.reset with cfg := cfg, pc := 0 }

/-- The state `load(bytes)` leaves when it succeeds (R271): everything re-initialised but the configuration and the
RNG oracle's place (R36, R274). The keys and the stack entries are cleared too. -/
def State.loaded (s : State) (rom : List Byte) : State :=
  { State.reset with
    cfg := s.cfg
    mem := romCells s.cfg.fontBase loadAddr rom
    romBuf := rom
    draws := s.draws }

/-- `load(bytes)` (R271, R272): with the error, the Machine keeps its whole previous state. -/
def hostLoad (s : State) (rom : List Byte) : State × Option LoadError :=
  if romWellFormed rom then (s.loaded rom, none) else (s, some .romTooLarge)

/-- `reset()` (R273): exactly `load(ROMBUF)`. -/
def hostReset (s : State) : State := (hostLoad s s.romBuf).1

/-- `set_input(v)` (R241): the whole vector at once, nothing else. -/
def hostSetInput (s : State) (keys : Vector Bool 16) : State := s.withKeys keys

/-- The cycles of one tick, at most `n`: stop at the first that faults, leaving the Machine as the fault leaves it
(R82, R237). -/
def runCycles : Nat → State → State × Host.Outcome Unit Fault Refusal
  | 0, s => (s, .next ())
  | n + 1, s =>
    match cycle s with
    | .next t => runCycles n t
    | .fault f => (s.advance.afterFault, .fault f)
    | .refused r => (s, .refused r)

/-- `tick()` (R237): one timer decrement, then `CYCLES_PER_TICK` cycles; the second component is what it returns to
the host (`.next ()` for Ok, `.fault f` for Err(f), R231). -/
def hostTick (s : State) : State × Host.Outcome Unit Fault Refusal :=
  runCycles s.cfg.cyclesPerTick s.timerDecrement

/-- `should_play_sound()` (R240). -/
def shouldPlaySound (s : State) : Bool := decide (0 < s.st.toNat)

/-- `display_width()` (R242). -/
def displayWidth (_ : State) : Nat := dispW

/-- `display_height()` (R242). -/
def displayHeight (_ : State) : Nat := dispH

/-- `pixel_at(x, y)` (R242): false outside the display. -/
def pixelAt (s : State) (x y : Nat) : Bool := if x < dispW ∧ y < dispH then s.pix x y else false

/-- The kind of a fault by its ordinal in R230's table (92_eei_decisions D37). -/
def faultOrdinal : Fault → Nat
  | .unknownOpcode _ => 0
  | .stackOverflow _ => 1
  | .stackUnderflow _ => 2
  | .outOfBoundsAddress _ => 3

/-- The `pc` of a fault record (R231). -/
def faultPc : Fault → Word
  | .unknownOpcode pc => pc
  | .stackOverflow pc => pc
  | .stackUnderflow pc => pc
  | .outOfBoundsAddress pc => pc

end Sys2Proof.Machine
end

