-- ==== Sys2Proof/Safety.lean ====
section
/-!
DEFINITION. The terms that statements about the machine use: what an instruction leaves unchanged, what an encoding
says, the invariants of a good state, and the words the spec's own rules use (unknown opcode, sprite pixel, parked).
-/

namespace Sys2Proof.Machine

/-! ## Frames -/

/-- Every byte of memory reads as before. -/
def MemSame (s t : State) : Prop := ∀ a, t.memRead a = s.memRead a

/-- Every byte of memory outside the `n` bytes from `lo` up reads as before. -/
def MemSameOutside (lo n : Nat) (s t : State) : Prop := ∀ a, ¬(lo ≤ a ∧ a < lo + n) → t.memRead a = s.memRead a

/-- Every general register outside `xs` holds what it held. -/
def RegsSameBut (xs : List Reg) (s t : State) : Prop := ∀ r, r ∉ xs → t.getV r = s.getV r

/-- Nothing but the general registers in `xs` may differ. -/
def OnlyRegs (xs : List Reg) (s t : State) : Prop := RegsSameBut xs s t ∧ t = s.withV t.v ∧ MemSame s t

/-- Nothing but PC may differ. -/
def OnlyPc (s t : State) : Prop := t = s.withPc t.pc ∧ MemSame s t

/-- Nothing but I may differ. -/
def OnlyIndex (s t : State) : Prop := t = s.withI t.i ∧ MemSame s t

/-- The instruction names register `r` as one it writes: by its field X, or, for FX65, among V0..VX (R21). -/
def NamesDestination (r : Reg) : Instr → Prop
  | .ldImm x _ | .addImm x _ | .rnd x _ => r = x
  | .ldReg x _ | .orReg x _ | .andReg x _ | .xorReg x _ => r = x
  | .addReg x _ | .subReg x _ | .shr x _ | .subn x _ | .shl x _ => r = x
  | .ldVxDt x | .ldVxK x => r = x
  | .loadRegs x => r.val ≤ x.val
  | .cls | .ret | .jp _ | .call _ | .ldI _ | .jpV0 _ => False
  | .seImm _ _ | .sneImm _ _ | .seReg _ _ | .sneReg _ _ | .skp _ | .sknp _ => False
  | .drw _ _ _ | .ldDtVx _ | .ldStVx _ | .addIVx _ | .ldFVx _ | .ldBVx _ | .storeRegs _ => False

/-- The instruction writes VF as a side effect, under a configuration (R34). -/
def WritesFlag (c : Config) : Instr → Prop
  | .addReg _ _ | .subReg _ _ | .shr _ _ | .subn _ _ | .shl _ _ | .drw _ _ _ => True
  | .orReg _ _ | .andReg _ _ | .xorReg _ _ => c.logicVfReset = true
  | .cls | .ret | .jp _ | .call _ | .ldI _ | .jpV0 _ => False
  | .seImm _ _ | .sneImm _ _ | .seReg _ _ | .sneReg _ _ | .skp _ | .sknp _ => False
  | .ldImm _ _ | .addImm _ _ | .rnd _ _ | .ldReg _ _ | .ldVxDt _ | .ldVxK _ | .loadRegs _ => False
  | .ldDtVx _ | .ldStVx _ | .addIVx _ | .ldFVx _ | .ldBVx _ | .storeRegs _ => False

/-! ## Encodings -/

/-- Every word with `op & mask = value` is the instruction `mk op` (R74). -/
def EncodedAs (mask value : Word) (mk : Word → Instr) : Prop :=
  ∀ op : Word, op &&& mask = value → decode op = .ok (mk op)

/-- The nibble of an opcode that holds bits `4*k+3 .. 4*k` (R72). -/
def nibble (k : Nat) (op : Word) : Nat := op.toNat / 16 ^ k % 16

/-- The unknown opcodes, as the table of R75 lists them by top nibble. -/
def UnknownWord (op : Word) : Prop :=
  (nibble 3 op = 0x0 ∧ op ≠ 0x00E0 ∧ op ≠ 0x00EE) ∨
  (nibble 3 op = 0x5 ∧ nibble 0 op ≠ 0) ∨
  (nibble 3 op = 0x8 ∧ nibble 0 op ∈ [0x8, 0x9, 0xA, 0xB, 0xC, 0xD, 0xF]) ∨
  (nibble 3 op = 0x9 ∧ nibble 0 op ≠ 0) ∨
  (nibble 3 op = 0xE ∧ op.toNat % 256 ∉ [0x9E, 0xA1]) ∨
  (nibble 3 op = 0xF ∧ op.toNat % 256 ∉ [0x07, 0x0A, 0x15, 0x18, 0x1E, 0x29, 0x33, 0x55, 0x65])

/-! ## Sprites -/

/-- Whether the sprite of height `n` at (V[x], V[y]) has a set bit that falls on display cell (px, py)
(R191..R193). -/
def spriteBit (s : State) (x y : Reg) (n px py : Nat) : Bool :=
  (List.range n).any fun r =>
    (List.range 8).any fun c =>
      ((s.memRead (s.indexAddr + r)).getD 0).getLsbD (7 - c) &&
        decide (place s.cfg.spriteEdge (s.spriteX x + c) (s.spriteY y + r) = some (px, py))

/-! ## Invariants -/

/-- Memory is in its canonical form. -/
def MemCanonical (s : State) : Prop := memWf s.cfg.fontBase s.mem = true

/-- PC and the return addresses stay inside the bounds of R26. -/
def PcBounded (s : State) : Prop :=
  s.pc.toNat ≤ 0x1002 ∧ ∀ k : Fin 16, k.val < s.sp.val → s.stack[k].toNat ≤ 0x1000

/-- The key-wait flag is set only while PC stands at an FX0A instruction (R31). -/
def KeyWaitAtInstruction (s : State) : Prop :=
  s.kw = true → ∃ op x, s.fetch = some op ∧ decode op = .ok (.ldVxK x)

/-- The configuration record and the resident ROM meet their bounds, and the tick's loop counter its budget
(R6, R32, R237). -/
def ConfigOk (s : State) : Prop :=
  s.cfg.wellFormed = true ∧ romWellFormed s.romBuf = true ∧ s.cyclesLeft ≤ s.cfg.cyclesPerTick

/-- A Machine is parked at `a` (R281): PC is `a`, and the word there is a jump to `a`. -/
def Parked (a : Addr12) (s : State) : Prop :=
  s.pc = a.setWidth 16 ∧ s.fetch = some (wordNNN 0x1000 a)

/-- A state that meets every invariant of the model. -/
def GoodState (s : State) : Prop := MemCanonical s ∧ PcBounded s ∧ KeyWaitAtInstruction s ∧ ConfigOk s

/-! ## Creation, load and reset -/

/-- The glyphs of the hexadecimal digits, as the table of R57 gives them. -/
def glyphTable : List (List Byte) :=
  [ [0xF0, 0x90, 0x90, 0x90, 0xF0], [0x20, 0x60, 0x20, 0x20, 0x70], [0xF0, 0x10, 0xF0, 0x80, 0xF0],
    [0xF0, 0x10, 0xF0, 0x10, 0xF0], [0x90, 0x90, 0xF0, 0x10, 0x10], [0xF0, 0x80, 0xF0, 0x10, 0xF0],
    [0xF0, 0x80, 0xF0, 0x90, 0xF0], [0xF0, 0x10, 0x20, 0x40, 0x40], [0xF0, 0x90, 0xF0, 0x90, 0xF0],
    [0xF0, 0x90, 0xF0, 0x10, 0xF0], [0xF0, 0x90, 0xF0, 0x90, 0x90], [0xE0, 0x90, 0xE0, 0x90, 0xE0],
    [0xF0, 0x80, 0x80, 0x80, 0xF0], [0xE0, 0x90, 0x90, 0x90, 0xE0], [0xF0, 0x80, 0xF0, 0x80, 0xF0],
    [0xF0, 0x80, 0xF0, 0x80, 0x80] ]

/-- The byte at an address of a memory that holds the font and nothing else (R57): byte j of the glyph of d at
FONT_BASE + 5*d + j, zero elsewhere. -/
def fontOrZero (fb a : Nat) : Byte :=
  if fb ≤ a ∧ a < fb + fontBytes then (glyphTable.getD ((a - fb) / 5) []).getD ((a - fb) % 5) 0 else 0

/-- Every component but memory, PC, ROMBUF and the parameters is zero, off or false (R20, R270, R271). -/
def Cleared (s : State) : Prop :=
  (∀ r, s.getV r = 0) ∧ s.i = 0 ∧ s.sp = 0 ∧ (∀ k : Fin 16, s.stack[k] = 0) ∧ s.dt = 0 ∧ s.st = 0 ∧
    (∀ x y, s.pix x y = false) ∧ (∀ k, s.key k = false) ∧ s.kw = false

/-! ## Outcomes -/

/-- Change the next state of an outcome. -/
def mapNext (f : State → State) : Host.Outcome State Fault Refusal → Host.Outcome State Fault Refusal
  | .next s => .next (f s)
  | .fault k => .fault k
  | .refused r => .refused r

end Sys2Proof.Machine
end

