-- ==== Sys2Proof/Certificates/Slice0/Obligations.lean ====
section
/-!
DEFINITION. The statements for the provers. Each docstring names the rules of spec/ it formalises. Within an
instruction's statement PC is the value on entry, pc0 + 2 (spec/30_encoding.md R81), so `s.pc - 2` is pc0. Every
statement is about every configuration record (spec/00_scope.md R6) unless it says otherwise. A fault outcome carries
no state, so an instruction that faults has written nothing; what the Machine is after a fault is in the tick's
statements. Passages of a rule that the spec marks as its own general knowledge or decision are followed as the rule
(log entry 11).
-/

open Sys2Proof Sys2Proof.Machine

/-! ## Encoding and decoding -/

/-- R72, R74, R83: every instruction decodes back from its opcode and from its two bytes. -/
def Obligations.DecodeAfterEncode : Prop :=
  ∀ i : Instr, decode (encode i) = .ok i ∧ decodeBytes (encodeBytes i) = .ok i ∧
    decodeTableWord 16 (encode i).toNat = some i

/-- R74, R83: a word that decodes has one meaning, and that meaning's opcode is the word. -/
def Obligations.EncodeAfterDecode : Prop :=
  ∀ (op : Word) (i : Instr), decode op = .ok i → encode i = op

/-- R74: the map is the table of R74, its rows do not overlap, and a word decodes to the row it fits. -/
def Obligations.OpcodeMapIsUnambiguous : Prop :=
  (opcodeRows.map fun r => (r.mask, r.value)) =
    [(0xFFFF, 0x00E0), (0xFFFF, 0x00EE), (0xF000, 0x1000), (0xF000, 0x2000), (0xF000, 0x3000), (0xF000, 0x4000),
     (0xF00F, 0x5000), (0xF000, 0x6000), (0xF000, 0x7000), (0xF00F, 0x8000), (0xF00F, 0x8001), (0xF00F, 0x8002),
     (0xF00F, 0x8003), (0xF00F, 0x8004), (0xF00F, 0x8005), (0xF00F, 0x8006), (0xF00F, 0x8007), (0xF00F, 0x800E),
     (0xF00F, 0x9000), (0xF000, 0xA000), (0xF000, 0xB000), (0xF000, 0xC000), (0xF000, 0xD000), (0xF0FF, 0xE09E),
     (0xF0FF, 0xE0A1), (0xF0FF, 0xF007), (0xF0FF, 0xF00A), (0xF0FF, 0xF015), (0xF0FF, 0xF018), (0xF0FF, 0xF01E),
     (0xF0FF, 0xF029), (0xF0FF, 0xF033), (0xF0FF, 0xF055), (0xF0FF, 0xF065)] ∧
  (∀ r ∈ opcodeRows, ∀ q ∈ opcodeRows, ∀ op : Word, op &&& r.mask = r.value → op &&& q.mask = q.value →
    (r.mask, r.value) = (q.mask, q.value)) ∧
  (∀ r ∈ opcodeRows, ∀ op : Word, op &&& r.mask = r.value → decode op = .ok (r.build op))

/-- R75: the words the decoder rejects are exactly those of R75's table (the spec's own inference from R74), and
executing one raises UnknownOpcode with the pc of that word. -/
def Obligations.UnknownOpcodesAreThoseListed : Prop :=
  (∀ op : Word, UnknownWord op ↔ decode op = .error (.unknownOpcode op)) ∧
  (∀ op : Word, ¬UnknownWord op → ∃ i, decode op = .ok i) ∧
  (∀ (s : State) (op : Word), s.fetch = some op → UnknownWord op → cycle s = .fault (.unknownOpcode s.pc))

/-- R76, R77: every 0x0NNN other than 00E0 and 00EE raises UnknownOpcode, and so do the Super-CHIP encodings; DXY0 is
the ordinary DXYN with N = 0. -/
def Obligations.MachineCodeAndSuperChipAreUnknown : Prop :=
  (∀ (s : State) (op : Word), s.fetch = some op → op.toNat < 0x1000 → op ≠ 0x00E0 → op ≠ 0x00EE →
    cycle s = .fault (.unknownOpcode s.pc)) ∧
  (∀ (s : State) (op : Word), s.fetch = some op →
    (op.toNat / 16 = 0x00C ∨ op ∈ [0x00FB, 0x00FC, 0x00FD, 0x00FE, 0x00FF] ∨
      ∃ x : Reg, op ∈ [wordX 0xF030 x, wordX 0xF075 x, wordX 0xF085 x]) →
    cycle s = .fault (.unknownOpcode s.pc)) ∧
  (∀ x y : Reg, decode (wordXY 0xD000 x y) = .ok (.drw x y 0))

/-- R78: 0xFFFF makes `tick` return UnknownOpcode and leaves PC pointing at it. -/
def Obligations.TickStopsAtFFFF : Prop :=
  decode 0xFFFF = .error (.unknownOpcode 0xFFFF) ∧
  ∀ s : State, s.fetch = some 0xFFFF → 1 ≤ s.cfg.cyclesPerTick →
    (hostTick s).2 = .fault (.unknownOpcode s.pc) ∧ (hostTick s).1.pc = s.pc

/-- R72, R74: a few opcodes, one per family, written out as the table gives them. -/
def Obligations.SampleOpcodesDecode : Prop :=
  decode 0x00E0 = .ok .cls ∧ decode 0x23A4 = .ok (.call 0x3A4) ∧ decode 0x812E = .ok (.shl 1 2) ∧
  decode 0xF233 = .ok (.ldBVx 2) ∧ decode 0xD125 = .ok (.drw 1 2 5) ∧ decode 0xEFA1 = .ok (.sknp 15) ∧
  decode 0xC30F = .ok (.rnd 3 0x0F)

/-! ## The cycle, the step and the tick -/

/-- R81, R237: with an instruction's two bytes at PC, a step is `exec` of that instruction with PC advanced by 2; where
a tick begins, the timers are decremented and the budget is set first; a step that goes on uses one cycle. -/
def Obligations.StepRunsTheDecodedInstruction : Prop :=
  ∀ (s : State) (hi lo : Byte) (i : Instr), s.memRead s.pc.toNat = some hi → s.memRead (s.pc.toNat + 1) = some lo →
    decodeBytes [hi, lo] = .ok i →
    (s.cyclesLeft ≠ 0 → step s =
      mapNext (fun t => t.withCyclesLeft (t.cyclesLeft - 1)) (exec i (s.withPc (s.pc + 2)))) ∧
    (s.cyclesLeft = 0 → step s =
      mapNext (fun t => t.withCyclesLeft (t.cyclesLeft - 1))
        (exec i ((s.timerDecrement.withCyclesLeft s.cfg.cyclesPerTick).withPc (s.pc + 2))))

/-- R71, R81: the cycle's three cases: a fetch whose second byte is outside memory, an opcode that is unknown, and an
instruction, run with PC at trunc_16(pc0 + 2). -/
def Obligations.CycleFetchesAdvancesDispatches : Prop :=
  ∀ s : State,
    (memSize ≤ s.pc.toNat + 1 → cycle s = .fault (.outOfBoundsAddress s.pc)) ∧
    (∀ hi lo : Byte, s.memRead s.pc.toNat = some hi → s.memRead (s.pc.toNat + 1) = some lo →
      (∀ i, decode (BitVec.ofNat 16 (256 * hi.toNat + lo.toNat)) = .ok i →
        cycle s = exec i (s.withPc (BitVec.ofNat 16 (s.pc.toNat + 2)))) ∧
      (∀ e, decode (BitVec.ofNat 16 (256 * hi.toNat + lo.toNat)) = .error e →
        cycle s = .fault (.unknownOpcode s.pc)))

/-- R231: a fault record's pc is the address of the faulting instruction, and PC holds it when `tick` returns. -/
def Obligations.FaultRecordNamesTheInstruction : Prop :=
  (∀ (s : State) (f : Fault), cycle s = .fault f → faultPc f = s.pc) ∧
  (∀ (s : State) (f : Fault), step s = .fault f → faultPc f = s.pc) ∧
  (∀ (s : State) (f : Fault), (hostTick s).2 = .fault f → faultPc f = (hostTick s).1.pc)

/-- R82, R234: a tick that faults leaves exactly the state its earlier cycles made, PC at the faulting instruction. -/
def Obligations.FaultsArePrecise : Prop :=
  ∀ (s : State) (f : Fault), (hostTick s).2 = .fault f →
    ∃ k, k < s.cfg.cyclesPerTick ∧ runCycles k s.timerDecrement = ((hostTick s).1, .next ()) ∧
      cycle (hostTick s).1 = .fault f ∧ faultPc f = (hostTick s).1.pc

/-- R235: no halted state is kept: the tick after a fault decrements the timers and raises the same fault again. -/
def Obligations.NextTickRetriesTheFault : Prop :=
  ∀ (s : State) (f : Fault), (hostTick s).2 = .fault f →
    hostTick (hostTick s).1 = ((hostTick s).1.timerDecrement, .fault f)

/-- R237, refinement: the steps of one tick, run from a state between ticks, are `tick()`. -/
def Obligations.TickIsItsSteps : Prop :=
  ∀ s : State, s.cyclesLeft = 0 → 1 ≤ s.cfg.cyclesPerTick →
    (∀ t, hostTick s = (t, .next ()) ↔ core.run s.cfg.cyclesPerTick s = .next t) ∧
    (∀ f, (hostTick s).2 = .fault f ↔ core.run s.cfg.cyclesPerTick s = .fault f)

/-- R238: each non-zero timer goes down by one, a zero timer stays at zero, nothing else changes, once per tick and
before its cycles. -/
def Obligations.TimerDecrementRule : Prop :=
  ∀ s : State,
    (s.dt.toNat > 0 → s.timerDecrement.dt.toNat + 1 = s.dt.toNat) ∧ (s.dt.toNat = 0 → s.timerDecrement.dt.toNat = 0) ∧
    (s.st.toNat > 0 → s.timerDecrement.st.toNat + 1 = s.st.toNat) ∧ (s.st.toNat = 0 → s.timerDecrement.st.toNat = 0) ∧
    s.timerDecrement = (s.withDt s.timerDecrement.dt).withSt s.timerDecrement.st ∧ MemSame s s.timerDecrement ∧
    hostTick s = runCycles s.cfg.cyclesPerTick s.timerDecrement

/-- R281's inference from R101, R237 and R238 (the spec marks it as its own): a parked Machine stays parked, and a tick
changes nothing but the timers. -/
def Obligations.ParkedMachineStaysParked : Prop :=
  ∀ (s : State) (a : Addr12), Parked a s → hostTick s = (s.timerDecrement, .next ()) ∧ Parked a (hostTick s).1

/-- R230: the instructions that can fault, the kind each raises, and that every other instruction is total. -/
def Obligations.OnlyListedInstructionsFault : Prop :=
  (∀ (i : Instr) (s : State) (f : Fault), exec i s = .fault f →
    (i = .ret ∧ f = .stackUnderflow (s.pc - 2)) ∨
    (∃ nnn, i = .call nnn ∧ f = .stackOverflow (s.pc - 2)) ∨
    (((∃ nnn, i = .jpV0 nnn) ∨ (∃ x y n, i = .drw x y n) ∨ (∃ x, i = .ldBVx x) ∨ (∃ x, i = .storeRegs x) ∨
      (∃ x, i = .loadRegs x)) ∧ f = .outOfBoundsAddress (s.pc - 2))) ∧
  (∀ (i : Instr) (s : State) (r : Refusal), exec i s ≠ .refused r)

/-! ## Creation, load, reset and the host's operations -/

/-- R270: what creation leaves, and (the spec's own inference) what a `tick` on a Machine never loaded does under the default FONT_BASE. -/
def Obligations.CreationState : Prop :=
  (∀ cfg : Config, Cleared (created cfg) ∧ (created cfg).pc = 0 ∧ (created cfg).romBuf = [] ∧
    (created cfg).cfg = cfg ∧
    ∀ a, a < memSize → (created cfg).memRead a = some (fontOrZero cfg.fontBase a)) ∧
  hostTick (created Config.default) = (created Config.default, .fault (.unknownOpcode 0))

/-- R271: `load` re-initialises everything, copies the ROM to 0x200 and keeps it as ROMBUF; too large a ROM is an error
and changes nothing. R274, R36: the configuration and the RNG oracle are untouched; that the oracle's place is the
counter `draws`, which therefore stays, is the model's choice (log entry 3). -/
def Obligations.LoadInitialisesTheMachine : Prop :=
  (∀ (s : State) (rom : List Byte), maxRom < rom.length → hostLoad s rom = (s, some .romTooLarge)) ∧
  ∀ (s : State) (rom : List Byte), rom.length ≤ maxRom →
    ∃ t, hostLoad s rom = (t, none) ∧ Cleared t ∧ t.pc = 0x0200 ∧ t.romBuf = rom ∧ t.cfg = s.cfg ∧
      t.draws = s.draws ∧
      ∀ a, a < memSize → t.memRead a =
        some (if 0x200 ≤ a ∧ a < 0x200 + rom.length then rom.getD (a - 0x200) 0 else fontOrZero s.cfg.fontBase a)

/-- R272: `load` fails exactly for a ROM of more than 3584 bytes, and a failed load changes nothing. -/
def Obligations.LoadRefusesALargeRom : Prop :=
  ∀ (s : State) (rom : List Byte),
    (3584 < rom.length → hostLoad s rom = (s, some .romTooLarge)) ∧
    (rom.length ≤ 3584 → (hostLoad s rom).2 = none)

/-- R273: `reset` is `load(ROMBUF)`: the ROM's bytes are back at 0x200; before any load it leaves font and zeros. -/
def Obligations.ResetReloadsTheRom : Prop :=
  (∀ s : State, s.romBuf.length ≤ maxRom →
    hostLoad s s.romBuf = (hostReset s, none) ∧ (hostReset s).romBuf = s.romBuf ∧ (hostReset s).pc = 0x0200 ∧
    ∀ k, k < s.romBuf.length → (hostReset s).memRead (0x200 + k) = s.romBuf[k]?) ∧
  (∀ (cfg : Config) (a : Nat), a < memSize →
    (hostReset (created cfg)).memRead a = some (fontOrZero cfg.fontBase a))

/-- R20 (the `load`/`reset` column) and R275, for State.reset, which is `reset` of a Machine just created with R6's
defaults. The defaults are carried in State by the model's choice (log entry 1); the model's own counters are 0 by its
choice (log entries 2 and 3). -/
def Obligations.ResetStateValues : Prop :=
  hostReset (created Config.default) = State.reset ∧ Cleared State.reset ∧ State.reset.pc = 0x0200 ∧
  State.reset.romBuf = [] ∧ ∀ a, a < memSize → State.reset.memRead a = some (fontOrZero 0x050 a)

/-- R57 (the glyph bytes are its general knowledge, log entry 11): after a load the glyph of digit d stands at FONT_BASE + 5*d, and the rest of the reserved region is zero. -/
def Obligations.FontStandsInTheReservedRegion : Prop :=
  ∀ (s : State) (rom : List Byte), s.cfg.wellFormed = true → rom.length ≤ maxRom →
    (∀ d j, d < 16 → j < 5 →
      (hostLoad s rom).1.memRead (s.cfg.fontBase + 5 * d + j) = some ((glyphTable.getD d []).getD j 0)) ∧
    (∀ a, a < 0x200 → ¬(s.cfg.fontBase ≤ a ∧ a < s.cfg.fontBase + 80) → (hostLoad s rom).1.memRead a = some 0)

/-- R240, R241, R242: the queries and `set_input`, and that no tick changes the input vector. -/
def Obligations.HostQueriesAndInput : Prop :=
  ∀ s : State,
    (shouldPlaySound s = true ↔ s.st.toNat > 0) ∧ displayWidth s = 64 ∧ displayHeight s = 32 ∧
    (∀ x y, x < 64 → y < 32 → pixelAt s x y = s.pix x y) ∧ (∀ x y, ¬(x < 64 ∧ y < 32) → pixelAt s x y = false) ∧
    (∀ ks : Vector Bool 16, (∀ k, (hostSetInput s ks).key k = ks[k]) ∧
      hostSetInput s ks = s.withKeys (hostSetInput s ks).keys ∧ MemSame s (hostSetInput s ks)) ∧
    (hostTick s).1.keys = s.keys

/-! ## Memory -/

/-- R51, R52: memory is plain storage inside [0, 4096), and an access outside it is rejected. -/
def Obligations.MemoryIsPlainStorage : Prop :=
  (∀ (s : State) (a : Nat) (b : Byte), MemCanonical s → a < memSize →
    (∃ c, s.memRead a = some c) ∧
    ∃ t, s.writeBytes a [b] = some t ∧ t.memRead a = some b ∧ MemSameOutside a 1 s t ∧ t = s.withMem t.mem) ∧
  (∀ (s : State) (a : Nat) (b : Byte), memSize ≤ a → s.memRead a = none ∧ s.writeBytes a [b] = none)

/-- R63, R53: a fetch sees the bytes stored at PC, the byte at the lower address in bits 15..8. -/
def Obligations.FetchSeesStores : Prop :=
  ∀ (s t : State) (hi lo : Byte), MemCanonical s → s.writeBytes s.pc.toNat [hi, lo] = some t →
    t.fetch = some (BitVec.ofNat 16 (256 * hi.toNat + lo.toNat))

/-! ## Invariants -/

/-- R50, R51: every step keeps memory in its canonical form. -/
def Obligations.StepKeepsMemoryCanonical : Prop :=
  ∀ s t : State, MemCanonical s → step s = .next t → MemCanonical t

/-- The bound of R26, the spec's own inference from R81 and R100..R108: PC stays at or below 0x1002 and every return
address held at or below 0x1000. -/
def Obligations.StepKeepsPcBounded : Prop :=
  ∀ s t : State, PcBounded s → step s = .next t → PcBounded t

/-- R31: KW is true only while PC stands at the FX0A it waits in. -/
def Obligations.StepKeepsKeyWaitAtInstruction : Prop :=
  ∀ s t : State, KeyWaitAtInstruction s → step s = .next t → KeyWaitAtInstruction t

/-- R6, R32, R237: the configuration keeps its bounds, ROMBUF its size and the loop counter its budget. -/
def Obligations.StepKeepsConfigOk : Prop :=
  ∀ s t : State, ConfigOk s → step s = .next t → ConfigOk t

/-- R20: the invariants hold at reset. -/
def Obligations.ResetIsAGoodState : Prop := GoodState State.reset

/-- R270..R273, R237, R241: creation makes a good state and every host operation keeps one. -/
def Obligations.HostOperationsKeepGoodState : Prop :=
  (∀ cfg : Config, cfg.wellFormed = true → GoodState (created cfg)) ∧
  (∀ s : State, GoodState s →
    (∀ rom, GoodState (hostLoad s rom).1) ∧ GoodState (hostReset s) ∧ (∀ ks, GoodState (hostSetInput s ks)) ∧
    GoodState (hostTick s).1)

/-- R21, R24, R25, R27, R28, R29, R30, R31, R32, R33, R34, R37: each component is changed only by the instructions its
rule names, a general register only as a named destination or, for V[15], as a flag, and Key, ROMBUF and the
configuration by none. Model's choice: the counter `draws`, raised by CXNN alone (log entry 3), and the tick's counter
`cyclesLeft`, changed by no instruction (log entry 2). -/
def Obligations.ComponentsChangeOnlyByTheirWriters : Prop :=
  ∀ (i : Instr) (s t : State), exec i s = .next t →
    (∀ r, t.getV r ≠ s.getV r → NamesDestination r i ∨ (r = regF ∧ WritesFlag s.cfg i)) ∧
    (t.i ≠ s.i → (∃ nnn, i = .ldI nnn) ∨ (∃ x, i = .addIVx x) ∨ (∃ x, i = .ldFVx x) ∨
      (s.cfg.indexInc = true ∧ ((∃ x, i = .storeRegs x) ∨ ∃ x, i = .loadRegs x))) ∧
    (¬MemSame s t → (∃ x, i = .ldBVx x) ∨ (∃ x, i = .storeRegs x)) ∧
    ((t.sp ≠ s.sp ∨ t.stack ≠ s.stack) → i = .ret ∨ ∃ nnn, i = .call nnn) ∧
    (t.dt ≠ s.dt → ∃ x, i = .ldDtVx x) ∧
    (t.st ≠ s.st → ∃ x, i = .ldStVx x) ∧
    (t.display ≠ s.display → i = .cls ∨ ∃ x y n, i = .drw x y n) ∧
    (t.kw ≠ s.kw → ∃ x, i = .ldVxK x) ∧
    (t.draws ≠ s.draws → ∃ x nn, i = .rnd x nn) ∧
    (t.pc ≠ s.pc → i = .ret ∨ (∃ nnn, i = .jp nnn) ∨ (∃ nnn, i = .call nnn) ∨ (∃ nnn, i = .jpV0 nnn) ∨
      (∃ x nn, i = .seImm x nn) ∨ (∃ x nn, i = .sneImm x nn) ∨ (∃ x y, i = .seReg x y) ∨ (∃ x y, i = .sneReg x y) ∨
      (∃ x, i = .skp x) ∨ (∃ x, i = .sknp x) ∨ (∃ x, i = .ldVxK x)) ∧
    t.keys = s.keys ∧ t.romBuf = s.romBuf ∧ t.cfg = s.cfg ∧ t.cyclesLeft = s.cyclesLeft

/-- R30, R32, R33: no step changes the input vector, ROMBUF or the configuration. -/
def Obligations.StepsLeaveInputRomAndConfig : Prop :=
  ∀ s t : State, step s = .next t → t.keys = s.keys ∧ t.romBuf = s.romBuf ∧ t.cfg = s.cfg

/-- R28, R32: no instruction reads ST or ROMBUF: changing either before an instruction changes nothing but that
component after it. -/
def Obligations.SoundTimerAndRomAreReadByNoInstruction : Prop :=
  (∀ (i : Instr) (s : State) (b : Byte), (∀ x, i ≠ .ldStVx x) →
    exec i (s.withSt b) = mapNext (fun t => t.withSt b) (exec i s)) ∧
  (∀ (x : Reg) (s : State) (b : Byte), exec (.ldStVx x) (s.withSt b) = exec (.ldStVx x) s) ∧
  (∀ (i : Instr) (s : State) (rom : List Byte),
    exec i { s with romBuf := rom } = mapNext (fun t => { t with romBuf := rom }) (exec i s))

/-! ## Control flow -/

/-- R100, `RET`. -/
def Obligations.ReturnPopsTheStack : Prop :=
  EncodedAs 0xFFFF 0x00EE (fun _ => .ret) ∧
  (∀ (s : State) (k : Fin 16), s.sp.val = k.val + 1 →
    ∃ t, exec .ret s = .next t ∧ t.pc = s.stack[k] ∧ t.sp.val = k.val ∧ t.stack = s.stack ∧
      t = (s.withStack t.sp t.stack).withPc t.pc ∧ MemSame s t) ∧
  (∀ s : State, s.sp = 0 → exec .ret s = .fault (.stackUnderflow (s.pc - 2)))

/-- R101, `JP NNN`. -/
def Obligations.JumpSetsPc : Prop :=
  EncodedAs 0xF000 0x1000 (fun op => .jp (fieldNNN op)) ∧
  ∀ (s : State) (nnn : Addr12), ∃ t, exec (.jp nnn) s = .next t ∧ t.pc.toNat = nnn.toNat ∧ OnlyPc s t

/-- R102, `CALL NNN`: the address after the call is pushed. -/
def Obligations.CallPushesTheReturnAddress : Prop :=
  EncodedAs 0xF000 0x2000 (fun op => .call (fieldNNN op)) ∧
  (∀ (s : State) (nnn : Addr12) (k : Fin 16), s.sp.val = k.val →
    ∃ t, exec (.call nnn) s = .next t ∧ t.pc.toNat = nnn.toNat ∧ t.sp.val = k.val + 1 ∧
      (∀ j : Fin 16, t.stack[j] = if j = k then s.pc else s.stack[j]) ∧
      t = (s.withStack t.sp t.stack).withPc t.pc ∧ MemSame s t) ∧
  (∀ (s : State) (nnn : Addr12), s.sp.val = 16 → exec (.call nnn) s = .fault (.stackOverflow (s.pc - 2)))

/-- R103, R104, R108: `SE VX, NN` and `SNE VX, NN`. -/
def Obligations.SkipsOnALiteral : Prop :=
  EncodedAs 0xF000 0x3000 (fun op => .seImm (fieldX op) (fieldNN op)) ∧
  EncodedAs 0xF000 0x4000 (fun op => .sneImm (fieldX op) (fieldNN op)) ∧
  ∀ (s : State) (x : Reg) (nn : Byte),
    (∃ t, exec (.seImm x nn) s = .next t ∧ OnlyPc s t ∧
      t.pc = if s.getV x = nn then BitVec.ofNat 16 (s.pc.toNat + 2) else s.pc) ∧
    (∃ t, exec (.sneImm x nn) s = .next t ∧ OnlyPc s t ∧
      t.pc = if s.getV x ≠ nn then BitVec.ofNat 16 (s.pc.toNat + 2) else s.pc)

/-- R105, R106, R108: `SE VX, VY` and `SNE VX, VY`. -/
def Obligations.SkipsOnRegisters : Prop :=
  EncodedAs 0xF00F 0x5000 (fun op => .seReg (fieldX op) (fieldY op)) ∧
  EncodedAs 0xF00F 0x9000 (fun op => .sneReg (fieldX op) (fieldY op)) ∧
  ∀ (s : State) (x y : Reg),
    (∃ t, exec (.seReg x y) s = .next t ∧ OnlyPc s t ∧
      t.pc = if s.getV x = s.getV y then BitVec.ofNat 16 (s.pc.toNat + 2) else s.pc) ∧
    (∃ t, exec (.sneReg x y) s = .next t ∧ OnlyPc s t ∧
      t.pc = if s.getV x ≠ s.getV y then BitVec.ofNat 16 (s.pc.toNat + 2) else s.pc)

/-- R107, `JP V0, NNN`: the register is V0, or VX with X = NNN[11:8] under `Q_JUMP_VX`; a target beyond memory faults
at the jump. -/
def Obligations.JumpWithOffset : Prop :=
  EncodedAs 0xF000 0xB000 (fun op => .jpV0 (fieldNNN op)) ∧
  ∀ (s : State) (nnn : Addr12) (r : Reg), r.val = (if s.cfg.jumpVx then nnn.toNat / 256 else 0) →
    (nnn.toNat + (s.getV r).toNat < memSize →
      ∃ t, exec (.jpV0 nnn) s = .next t ∧ t.pc.toNat = nnn.toNat + (s.getV r).toNat ∧ OnlyPc s t) ∧
    (memSize ≤ nnn.toNat + (s.getV r).toNat → exec (.jpV0 nnn) s = .fault (.outOfBoundsAddress (s.pc - 2)))

/-! ## Arithmetic -/

/-- R132, R134: `LD VX, NN` and `LD VX, VY`; no flag. -/
def Obligations.LoadsIntoARegister : Prop :=
  EncodedAs 0xF000 0x6000 (fun op => .ldImm (fieldX op) (fieldNN op)) ∧
  EncodedAs 0xF00F 0x8000 (fun op => .ldReg (fieldX op) (fieldY op)) ∧
  (∀ (s : State) (x : Reg) (nn : Byte), ∃ t, exec (.ldImm x nn) s = .next t ∧ t.getV x = nn ∧ OnlyRegs [x] s t) ∧
  (∀ (s : State) (x y : Reg), ∃ t, exec (.ldReg x y) s = .next t ∧ t.getV x = s.getV y ∧ OnlyRegs [x] s t)

/-- R133, `ADD VX, NN`: the sum wraps and VF is no flag. -/
def Obligations.AddLiteralWraps : Prop :=
  EncodedAs 0xF000 0x7000 (fun op => .addImm (fieldX op) (fieldNN op)) ∧
  ∀ (s : State) (x : Reg) (nn : Byte), ∃ t, exec (.addImm x nn) s = .next t ∧
    (t.getV x).toNat = ((s.getV x).toNat + nn.toNat) % 256 ∧ OnlyRegs [x] s t

/-- R135, R136, R137: `OR`, `AND`, `XOR`; under `Q_LOGIC_VF_RESET` VF is cleared last. -/
def Obligations.LogicOperations : Prop :=
  EncodedAs 0xF00F 0x8001 (fun op => .orReg (fieldX op) (fieldY op)) ∧
  EncodedAs 0xF00F 0x8002 (fun op => .andReg (fieldX op) (fieldY op)) ∧
  EncodedAs 0xF00F 0x8003 (fun op => .xorReg (fieldX op) (fieldY op)) ∧
  ∀ (s : State) (x y : Reg),
    ∀ p ∈ [(Instr.orReg x y, s.getV x ||| s.getV y), (.andReg x y, s.getV x &&& s.getV y),
        (.xorReg x y, s.getV x ^^^ s.getV y)],
      ∃ t, exec p.1 s = .next t ∧
        (s.cfg.logicVfReset = false → t.getV x = p.2 ∧ OnlyRegs [x] s t) ∧
        (s.cfg.logicVfReset = true → t.getV regF = 0 ∧ (x ≠ regF → t.getV x = p.2) ∧ OnlyRegs [x, regF] s t)

/-- R138, R131: `ADD VX, VY`, the carry last. -/
def Obligations.AddWithCarry : Prop :=
  EncodedAs 0xF00F 0x8004 (fun op => .addReg (fieldX op) (fieldY op)) ∧
  ∀ (s : State) (x y : Reg), ∃ t, exec (.addReg x y) s = .next t ∧
    (x ≠ regF → (t.getV x).toNat = ((s.getV x).toNat + (s.getV y).toNat) % 256) ∧
    t.getV regF = (if (s.getV x).toNat + (s.getV y).toNat > 0xFF then 1 else 0) ∧ OnlyRegs [x, regF] s t

/-- R139, R141, R131: `SUB VX, VY` and `SUBN VX, VY` (VY minus VX), the NOT borrow last. -/
def Obligations.SubtractionsWithBorrow : Prop :=
  EncodedAs 0xF00F 0x8005 (fun op => .subReg (fieldX op) (fieldY op)) ∧
  EncodedAs 0xF00F 0x8007 (fun op => .subn (fieldX op) (fieldY op)) ∧
  ∀ (s : State) (x y : Reg),
    (∃ t, exec (.subReg x y) s = .next t ∧
      (x ≠ regF → (t.getV x).toNat = (256 + (s.getV x).toNat - (s.getV y).toNat) % 256) ∧
      t.getV regF = (if (s.getV x).toNat ≥ (s.getV y).toNat then 1 else 0) ∧ OnlyRegs [x, regF] s t) ∧
    (∃ t, exec (.subn x y) s = .next t ∧
      (x ≠ regF → (t.getV x).toNat = (256 + (s.getV y).toNat - (s.getV x).toNat) % 256) ∧
      t.getV regF = (if (s.getV y).toNat ≥ (s.getV x).toNat then 1 else 0) ∧ OnlyRegs [x, regF] s t)

/-- R140, R131: `SHR VX, VY` for both settings of `Q_SHIFT_SRC`; bit 0 of the source goes to VF last. -/
def Obligations.ShiftRight : Prop :=
  EncodedAs 0xF00F 0x8006 (fun op => .shr (fieldX op) (fieldY op)) ∧
  ∀ (s : State) (x y : Reg) (b : Byte), b = (if s.cfg.shiftSource = .vy then s.getV y else s.getV x) →
    ∃ t, exec (.shr x y) s = .next t ∧ (x ≠ regF → (t.getV x).toNat = b.toNat / 2) ∧
      (t.getV regF).toNat = b.toNat % 2 ∧ OnlyRegs [x, regF] s t

/-- R142, R131: `SHL VX, VY` for both settings of `Q_SHIFT_SRC`; bit 7 of the source goes to VF last. -/
def Obligations.ShiftLeft : Prop :=
  EncodedAs 0xF00F 0x800E (fun op => .shl (fieldX op) (fieldY op)) ∧
  ∀ (s : State) (x y : Reg) (b : Byte), b = (if s.cfg.shiftSource = .vy then s.getV y else s.getV x) →
    ∃ t, exec (.shl x y) s = .next t ∧ (x ≠ regF → (t.getV x).toNat = 2 * b.toNat % 256) ∧
      (t.getV regF).toNat = b.toNat / 128 ∧ OnlyRegs [x, regF] s t

/-- R143, `RND VX, NN`: one draw from the oracle, masked; it holds for every draw, and bits clear in NN are clear. That
the draws are counted in State is the model's choice (log entry 3). -/
def Obligations.RandomIsMasked : Prop :=
  EncodedAs 0xF000 0xC000 (fun op => .rnd (fieldX op) (fieldNN op)) ∧
  ∀ (s : State) (x : Reg) (nn : Byte), ∃ t, exec (.rnd x nn) s = .next t ∧
    t.getV x = randomByte s.draws &&& nn ∧ t.getV x &&& ~~~nn = 0 ∧ RegsSameBut [x] s t ∧
    t.draws = s.draws + 1 ∧ t = (s.withV t.v).withDraws t.draws ∧ MemSame s t

/-! ## Index register and memory instructions -/

/-- R160, R161: `LD I, NNN`, and `ADD I, VX`, whose 16-bit sum wraps with no fault and VF unchanged. -/
def Obligations.SetAndAddToIndex : Prop :=
  EncodedAs 0xF000 0xA000 (fun op => .ldI (fieldNNN op)) ∧
  EncodedAs 0xF0FF 0xF01E (fun op => .addIVx (fieldX op)) ∧
  (∀ (s : State) (nnn : Addr12), ∃ t, exec (.ldI nnn) s = .next t ∧ t.i.toNat = nnn.toNat ∧ OnlyIndex s t) ∧
  (∀ (s : State) (x : Reg), ∃ t, exec (.addIVx x) s = .next t ∧
    t.i.toNat = (s.i.toNat + (s.getV x).toNat) % 65536 ∧ OnlyIndex s t)

/-- R162, `LD F, VX`: FONT_BASE plus five times the low nibble of VX. -/
def Obligations.PointAtGlyph : Prop :=
  EncodedAs 0xF0FF 0xF029 (fun op => .ldFVx (fieldX op)) ∧
  ∀ (s : State) (x : Reg), ∃ t, exec (.ldFVx x) s = .next t ∧ OnlyIndex s t ∧
    (s.cfg.wellFormed = true → t.i.toNat = s.cfg.fontBase + 5 * ((s.getV x).toNat % 16))

/-- R163, R64: `LD B, VX`: hundreds, tens and ones at I, I+1, I+2, all or none. -/
def Obligations.StoreDecimalDigits : Prop :=
  EncodedAs 0xF0FF 0xF033 (fun op => .ldBVx (fieldX op)) ∧
  (∀ (s : State) (x : Reg), MemCanonical s → s.indexAddr + 3 ≤ memSize →
    ∃ t, exec (.ldBVx x) s = .next t ∧
      t.memRead s.indexAddr = some (BitVec.ofNat 8 ((s.getV x).toNat / 100)) ∧
      t.memRead (s.indexAddr + 1) = some (BitVec.ofNat 8 ((s.getV x).toNat / 10 % 10)) ∧
      t.memRead (s.indexAddr + 2) = some (BitVec.ofNat 8 ((s.getV x).toNat % 10)) ∧
      MemSameOutside s.indexAddr 3 s t ∧ t = s.withMem t.mem) ∧
  (∀ (s : State) (x : Reg), memSize < s.indexAddr + 3 →
    exec (.ldBVx x) s = .fault (.outOfBoundsAddress (s.pc - 2)))

/-- R164, R64: `LD [I], VX`: V0..VX to memory at I, all or none, then I by `Q_INDEX_INC`. -/
def Obligations.StoreRegisterBlock : Prop :=
  EncodedAs 0xF0FF 0xF055 (fun op => .storeRegs (fieldX op)) ∧
  (∀ (s : State) (x : Reg), MemCanonical s → s.indexAddr + x.val + 1 ≤ memSize →
    ∃ t, exec (.storeRegs x) s = .next t ∧
      (∀ k : Reg, k.val ≤ x.val → t.memRead (s.indexAddr + k.val) = some (s.getV k)) ∧
      MemSameOutside s.indexAddr (x.val + 1) s t ∧
      t.i.toNat = (if s.cfg.indexInc then s.i.toNat + x.val + 1 else s.i.toNat) ∧
      t = (s.withMem t.mem).withI t.i) ∧
  (∀ (s : State) (x : Reg), memSize < s.indexAddr + x.val + 1 →
    exec (.storeRegs x) s = .fault (.outOfBoundsAddress (s.pc - 2)))

/-- R165, R64: `LD VX, [I]`: V0..VX from memory at I, all or none, then I by `Q_INDEX_INC`. -/
def Obligations.LoadRegisterBlock : Prop :=
  EncodedAs 0xF0FF 0xF065 (fun op => .loadRegs (fieldX op)) ∧
  (∀ (s : State) (x : Reg), s.indexAddr + x.val + 1 ≤ memSize →
    ∃ t, exec (.loadRegs x) s = .next t ∧
      (∀ k : Reg, k.val ≤ x.val → s.memRead (s.indexAddr + k.val) = some (t.getV k)) ∧
      (∀ k : Reg, x.val < k.val → t.getV k = s.getV k) ∧
      t.i.toNat = (if s.cfg.indexInc then s.i.toNat + x.val + 1 else s.i.toNat) ∧
      t = (s.withV t.v).withI t.i ∧ MemSame s t) ∧
  (∀ (s : State) (x : Reg), memSize < s.indexAddr + x.val + 1 →
    exec (.loadRegs x) s = .fault (.outOfBoundsAddress (s.pc - 2)))

/-! ## Display -/

/-- R190, `CLS`: every pixel off, VF unchanged. -/
def Obligations.ClearScreen : Prop :=
  EncodedAs 0xFFFF 0x00E0 (fun _ => .cls) ∧
  ∀ s : State, ∃ t, exec .cls s = .next t ∧ (∀ x y, t.pix x y = false) ∧ t = s.withDisplay t.display ∧ MemSame s t

/-- R191, R192, R64: `DRW VX, VY, N`: every cell a set sprite bit falls on is flipped, VF is whether one of them was
on; a range outside memory faults with no effect. With N = 0 the range check passes (R64; log entry 5). -/
def Obligations.DrawSprite : Prop :=
  EncodedAs 0xF000 0xD000 (fun op => .drw (fieldX op) (fieldY op) (fieldN op)) ∧
  (∀ (s : State) (x y : Reg) (n : BitVec 4), n = 0 ∨ s.indexAddr + n.toNat ≤ memSize →
    ∃ t, exec (.drw x y n) s = .next t ∧
      (∀ px py, t.pix px py = (s.pix px py ^^ spriteBit s x y n.toNat px py)) ∧
      (t.getV regF = 1 ↔ ∃ px py, spriteBit s x y n.toNat px py = true ∧ s.pix px py = true) ∧
      (t.getV regF = 0 ↔ ¬∃ px py, spriteBit s x y n.toNat px py = true ∧ s.pix px py = true) ∧
      RegsSameBut [regF] s t ∧ t = (s.withDisplay t.display).withV t.v ∧ MemSame s t) ∧
  (∀ (s : State) (x y : Reg) (n : BitVec 4), n ≠ 0 → memSize < s.indexAddr + n.toNat →
    exec (.drw x y n) s = .fault (.outOfBoundsAddress (s.pc - 2)))

/-- R193: the edge policy, that the start wraps, and the spec's own inference that no two pixels of one sprite land on
one cell. -/
def Obligations.EdgePolicy : Prop :=
  (∀ x y, place .wrap x y = some (x % 64, y % 32)) ∧
  (∀ x y, x < 64 → y < 32 → place .clip x y = some (x, y)) ∧
  (∀ x y, ¬(x < 64 ∧ y < 32) → place .clip x y = none) ∧
  (∀ (s : State) (x y : Reg), s.spriteX x = (s.getV x).toNat % 64 ∧ s.spriteY y = (s.getV y).toNat % 32) ∧
  (∀ (edge : SpriteEdge) (x0 y0 r c r' c' : Nat) (p : Nat × Nat), x0 < 64 → y0 < 32 → r < 15 → r' < 15 → c < 8 →
    c' < 8 → place edge (x0 + c) (y0 + r) = some p → place edge (x0 + c') (y0 + r') = some p → r = r' ∧ c = c')

/-- R194, the spec's own inference from R192 and R193: drawing the same sprite at the same place twice restores the display, and the second draw collides exactly
when a set bit fell on a pixel that was off before the first. -/
def Obligations.DrawTwiceRestores : Prop :=
  ∀ (s t u w : State) (x y : Reg) (n : BitVec 4), exec (.drw x y n) s = .next t →
    u.display = t.display → u.i = s.i → u.cfg = s.cfg → u.mem = s.mem → u.getV x = s.getV x → u.getV y = s.getV y →
    exec (.drw x y n) u = .next w →
    w.display = s.display ∧
    (w.getV regF = 1 ↔ ∃ px py, spriteBit s x y n.toNat px py = true ∧ s.pix px py = false) ∧
    ((∀ px py, spriteBit s x y n.toNat px py = false) → t.getV regF = 0 ∧ w.getV regF = 0)

/-! ## Timers and keys -/

/-- R210, R211, R212: `LD VX, DT`, `LD DT, VX`, `LD ST, VX`. -/
def Obligations.TimerInstructions : Prop :=
  EncodedAs 0xF0FF 0xF007 (fun op => .ldVxDt (fieldX op)) ∧
  EncodedAs 0xF0FF 0xF015 (fun op => .ldDtVx (fieldX op)) ∧
  EncodedAs 0xF0FF 0xF018 (fun op => .ldStVx (fieldX op)) ∧
  ∀ (s : State) (x : Reg),
    (∃ t, exec (.ldVxDt x) s = .next t ∧ t.getV x = s.dt ∧ OnlyRegs [x] s t) ∧
    (∃ t, exec (.ldDtVx x) s = .next t ∧ t.dt = s.getV x ∧ t = s.withDt t.dt ∧ MemSame s t) ∧
    (∃ t, exec (.ldStVx x) s = .next t ∧ t.st = s.getV x ∧ t = s.withSt t.st ∧ MemSame s t)

/-- R213, R214, R108: `SKP VX` and `SKNP VX`; the low nibble of VX names the key. -/
def Obligations.SkipsOnAKey : Prop :=
  EncodedAs 0xF0FF 0xE09E (fun op => .skp (fieldX op)) ∧
  EncodedAs 0xF0FF 0xE0A1 (fun op => .sknp (fieldX op)) ∧
  ∀ (s : State) (x : Reg) (k : Fin 16), k.val = (s.getV x).toNat % 16 →
    (∃ t, exec (.skp x) s = .next t ∧ OnlyPc s t ∧
      t.pc = if s.key k = true then BitVec.ofNat 16 (s.pc.toNat + 2) else s.pc) ∧
    (∃ t, exec (.sknp x) s = .next t ∧ OnlyPc s t ∧
      t.pc = if s.key k = false then BitVec.ofNat 16 (s.pc.toNat + 2) else s.pc)

/-- R215, `LD VX, K`: the lowest pressed key ends the wait; with none pressed PC goes back to pc0 and KW is set. -/
def Obligations.WaitForKey : Prop :=
  EncodedAs 0xF0FF 0xF00A (fun op => .ldVxK (fieldX op)) ∧
  (∀ (s : State) (x : Reg) (k : Fin 16), s.key k = true → (∀ j : Fin 16, j < k → s.key j = false) →
    ∃ t, exec (.ldVxK x) s = .next t ∧ (t.getV x).toNat = k.val ∧ RegsSameBut [x] s t ∧ t.kw = false ∧
      t = (s.withV t.v).withKw t.kw ∧ MemSame s t) ∧
  (∀ (s : State) (x : Reg), (∀ k, s.key k = false) →
    ∃ t, exec (.ldVxK x) s = .next t ∧ t.pc = s.pc - 2 ∧ t.kw = true ∧ t = (s.withPc t.pc).withKw t.kw ∧ MemSame s t)
end

