-- ==== Sys2Proof/Laws/Decode.lean ====
section
/-!
SUPPORT. The laws of the decoder: no two rows of the opcode map overlap, a word a row fits decodes to that row's
instruction, and how the fields of a word follow from its value.
-/

namespace Sys2Proof

/-! ## The opcode map -/

theorem Row.fits_iff (r : Row) (op : Word) : r.fits op = true ↔ op &&& r.mask = r.value := by
  simp [Row.fits]

/-- Two rows that disagree on a bit both of them fix. -/
def Row.apart (r q : Row) : Bool := r.value &&& q.mask &&& r.mask != q.value &&& r.mask &&& q.mask

theorem Row.not_both {r q : Row} (h : r.apart q = true) {op : Word} (hr : op &&& r.mask = r.value)
    (hq : op &&& q.mask = q.value) : False := by
  simp only [Row.apart, bne_iff_ne, ne_eq] at h
  apply h
  rw [← hr, ← hq]
  ext i hi
  simp
  cases op[i] <;> cases r.mask[i] <;> cases q.mask[i] <;> rfl

/-- No two rows of the map overlap (R74). -/
theorem opcodeRows_apart : opcodeRows.Pairwise (fun r q => r.apart q = true) := by decide

theorem find_of_pairwise {l : List Row} (hl : l.Pairwise (fun r q => r.apart q = true)) {r : Row} (hr : r ∈ l)
    {op : Word} (hop : op &&& r.mask = r.value) : l.find? (fun q => q.fits op) = some r := by
  induction l with
  | nil => cases hr
  | cons q l ih =>
    rw [List.pairwise_cons] at hl
    rcases List.mem_cons.mp hr with heq | hmem
    · subst heq
      simp [Row.fits, hop]
    · have hq : q.fits op = false := by
        by_contra hne
        have : q.fits op = true := by simpa using hne
        exact Row.not_both (hl.1 r hmem) ((q.fits_iff op).mp this) hop
      rw [List.find?_cons, hq]
      exact ih hl.2 hmem

/-- A word that a row fits decodes to that row's instruction (R74). -/
theorem decode_of_row {r : Row} (hr : r ∈ opcodeRows) {op : Word} (hop : op &&& r.mask = r.value) :
    decode op = .ok (r.build op) := by
  rw [decode, find_of_pairwise opcodeRows_apart hr hop]

/-- A word that decodes is one that some row fits, and its instruction is that row's. -/
theorem decode_ok {op : Word} {i : Instr} (h : decode op = .ok i) :
    ∃ r ∈ opcodeRows, op &&& r.mask = r.value ∧ i = r.build op := by
  unfold decode at h
  split at h
  · next r hf =>
    cases h
    exact ⟨r, List.mem_of_find?_eq_some hf, (r.fits_iff op).mp (by simpa using List.find?_some hf), rfl⟩
  · cases h

/-- A word that does not decode is one that no row fits (R75), and the rejection names it. -/
theorem decode_error {op : Word} {e : Reject} (h : decode op = .error e) :
    e = .unknownOpcode op ∧ ∀ r ∈ opcodeRows, op &&& r.mask ≠ r.value := by
  unfold decode at h
  split at h
  · cases h
  · next hf =>
    cases h
    refine ⟨rfl, fun r hr hop => ?_⟩
    have := List.find?_eq_none.mp hf r hr
    exact this ((r.fits_iff op).mpr hop)

/-! ## Fields as numbers -/

theorem fieldX_val (op : Word) : (fieldX op).val = op.toNat / 256 % 16 := by
  simp [fieldX, Nat.shiftRight_eq_div_pow]

theorem fieldY_val (op : Word) : (fieldY op).val = op.toNat / 16 % 16 := by
  simp [fieldY, Nat.shiftRight_eq_div_pow]

theorem fieldN_toNat (op : Word) : (fieldN op).toNat = op.toNat % 16 := by
  simp [fieldN]

theorem fieldNN_toNat (op : Word) : (fieldNN op).toNat = op.toNat % 256 := by
  simp [fieldNN]

theorem fieldNNN_toNat (op : Word) : (fieldNNN op).toNat = op.toNat % 4096 := by
  simp [fieldNNN]

/-! ## Words as their bytes -/

theorem wordOfBytes_toNat (hi lo : Byte) : (wordOfBytes hi lo).toNat = 256 * hi.toNat + lo.toNat := by
  have hh := hi.isLt
  have hl := lo.isLt
  have hshift : (BitVec.setWidth 16 hi <<< 8).toNat = hi.toNat <<< 8 := by
    rw [BitVec.toNat_shiftLeft, BitVec.toNat_setWidth, Nat.shiftLeft_eq, Nat.shiftLeft_eq]
    omega
  rw [wordOfBytes, BitVec.toNat_or, hshift, BitVec.toNat_setWidth, Nat.mod_eq_of_lt (by omega),
    ← Nat.shiftLeft_add_eq_or_of_lt hl, Nat.shiftLeft_eq]
  omega

/-- A word is made again from its two bytes (R53). -/
theorem wordOfBytes_high_low (w : Word) : wordOfBytes (highByte w) (lowByte w) = w := by
  apply BitVec.eq_of_toNat_eq
  have := w.isLt
  rw [wordOfBytes_toNat]
  simp [highByte, lowByte, Nat.shiftRight_eq_div_pow]
  omega

/-! ## Words by their nibbles -/

/-- Nibble k of a word, as bits. -/
def nib (k : Nat) (op : Word) : BitVec 4 := op.extractLsb' (4 * k) 4

theorem nib_and (k : Nat) (op m : Word) : nib k (op &&& m) = nib k op &&& nib k m := by
  unfold nib
  ext
  simp

theorem nib_toNat (k : Nat) (op : Word) : (nib k op).toNat = op.toNat / 2 ^ (4 * k) % 16 := by
  simp [nib, Nat.shiftRight_eq_div_pow]

/-- Two words with the same nibbles are the same. -/
theorem word_eq_of_nibs {a b : Word} (h0 : nib 0 a = nib 0 b) (h1 : nib 1 a = nib 1 b) (h2 : nib 2 a = nib 2 b)
    (h3 : nib 3 a = nib 3 b) : a = b := by
  have e0 := congrArg BitVec.toNat h0
  have e1 := congrArg BitVec.toNat h1
  have e2 := congrArg BitVec.toNat h2
  have e3 := congrArg BitVec.toNat h3
  simp only [nib_toNat] at e0 e1 e2 e3
  apply BitVec.eq_of_toNat_eq
  have := a.isLt
  have := b.isLt
  omega

/-- The nibbles of a word written as a sum of four digits. -/
theorem nibs_of_sum {op : Word} {a b c d : Nat} (_ : a < 16) (hb : b < 16) (hc : c < 16) (hd : d < 16)
    (h : op.toNat = 4096 * a + 256 * b + 16 * c + d) :
    nib 3 op = BitVec.ofNat 4 a ∧ nib 2 op = BitVec.ofNat 4 b ∧ nib 1 op = BitVec.ofNat 4 c ∧
      nib 0 op = BitVec.ofNat 4 d := by
  refine ⟨?_, ?_, ?_, ?_⟩ <;>
  · apply BitVec.eq_of_toNat_eq
    rw [nib_toNat, BitVec.toNat_ofNat, h]
    omega

/-- Whether a word fits a row, nibble by nibble. -/
theorem and_eq_of_nibs {op mask value : Word} (h0 : nib 0 op &&& nib 0 mask = nib 0 value)
    (h1 : nib 1 op &&& nib 1 mask = nib 1 value) (h2 : nib 2 op &&& nib 2 mask = nib 2 value)
    (h3 : nib 3 op &&& nib 3 mask = nib 3 value) : op &&& mask = value :=
  word_eq_of_nibs (by rw [nib_and, h0]) (by rw [nib_and, h1]) (by rw [nib_and, h2]) (by rw [nib_and, h3])

/-- The value of an opcode whose match and fields fit in 16 bits. -/
theorem toNat_ofNat_of_lt {n : Nat} (h : n < 65536) : (BitVec.ofNat 16 n).toNat = n := by
  rw [BitVec.toNat_ofNat]
  omega

/-! ## The words of the four formats -/

theorem wordXNN_toNat {a : Nat} (ha : a < 16) (x : Reg) (nn : Byte) :
    (wordXNN (4096 * a) x nn).toNat = 4096 * a + 256 * x.val + nn.toNat := by
  have := x.isLt
  have := nn.isLt
  exact toNat_ofNat_of_lt (by omega)

theorem wordXY_toNat {a d : Nat} (ha : a < 16) (hd : d < 16) (x y : Reg) :
    (wordXY (4096 * a + d) x y).toNat = 4096 * a + 256 * x.val + 16 * y.val + d := by
  have := x.isLt
  have := y.isLt
  rw [wordXY, toNat_ofNat_of_lt (by omega)]
  omega

theorem wordX_toNat {a c : Nat} (ha : a < 16) (hc : c < 256) (x : Reg) :
    (wordX (4096 * a + c) x).toNat = 4096 * a + 256 * x.val + c := by
  have := x.isLt
  rw [wordX, toNat_ofNat_of_lt (by omega)]
  omega

theorem wordNNN_toNat {a : Nat} (ha : a < 16) (nnn : Addr12) :
    (wordNNN (4096 * a) nnn).toNat = 4096 * a + nnn.toNat := by
  have := nnn.isLt
  exact toNat_ofNat_of_lt (by omega)

/-- A word whose top nibble is `a` fits a row that fixes the top nibble. -/
theorem and_top_nibble {op : Word} {a n : Nat} (ha : a < 16) (hn : n < 4096) (h : op.toNat = 4096 * a + n) :
    op &&& 0xF000 = BitVec.ofNat 16 (4096 * a) := by
  have hv : (BitVec.ofNat 16 (4096 * a)).toNat = 4096 * a := toNat_ofNat_of_lt (by omega)
  have hop := nibs_of_sum (op := op) (a := a) (b := n / 256) (c := n / 16 % 16) (d := n % 16) ha (by omega) (by omega)
    (by omega) (by omega)
  have hval := nibs_of_sum (op := BitVec.ofNat 16 (4096 * a)) (a := a) (b := 0) (c := 0) (d := 0) ha (by omega)
    (by omega) (by omega) (by omega)
  refine and_eq_of_nibs ?_ ?_ ?_ ?_
  · rw [hval.2.2.2, show nib 0 0xF000 = 0 from by decide]; simp
  · rw [hval.2.2.1, show nib 1 0xF000 = 0 from by decide]; simp
  · rw [hval.2.1, show nib 2 0xF000 = 0 from by decide]; simp
  · rw [hval.1, hop.1, show nib 3 0xF000 = BitVec.allOnes 4 from by decide, BitVec.and_allOnes]

/-- A word whose top and bottom nibbles are `a` and `d` fits a row that fixes these two. -/
theorem and_outer_nibbles {op : Word} {a b c d : Nat} (ha : a < 16) (hb : b < 16) (hc : c < 16) (hd : d < 16)
    (h : op.toNat = 4096 * a + 256 * b + 16 * c + d) : op &&& 0xF00F = BitVec.ofNat 16 (4096 * a + d) := by
  have hv : (BitVec.ofNat 16 (4096 * a + d)).toNat = 4096 * a + d := toNat_ofNat_of_lt (by omega)
  have hop := nibs_of_sum ha hb hc hd h
  have hval := nibs_of_sum (op := BitVec.ofNat 16 (4096 * a + d)) (a := a) (b := 0) (c := 0) (d := d) ha (by omega)
    (by omega) hd (by omega)
  refine and_eq_of_nibs ?_ ?_ ?_ ?_
  · rw [hval.2.2.2, hop.2.2.2, show nib 0 0xF00F = BitVec.allOnes 4 from by decide, BitVec.and_allOnes]
  · rw [hval.2.2.1, show nib 1 0xF00F = 0 from by decide]; simp
  · rw [hval.2.1, show nib 2 0xF00F = 0 from by decide]; simp
  · rw [hval.1, hop.1, show nib 3 0xF00F = BitVec.allOnes 4 from by decide, BitVec.and_allOnes]

/-- A word whose top nibble is `a` and whose low byte is `c` fits a row that fixes these two. -/
theorem and_top_and_low {op : Word} {a b c : Nat} (ha : a < 16) (hb : b < 16) (hc : c < 256)
    (h : op.toNat = 4096 * a + 256 * b + c) : op &&& 0xF0FF = BitVec.ofNat 16 (4096 * a + c) := by
  have hv : (BitVec.ofNat 16 (4096 * a + c)).toNat = 4096 * a + c := toNat_ofNat_of_lt (by omega)
  have hop := nibs_of_sum (op := op) (a := a) (b := b) (c := c / 16) (d := c % 16) ha hb (by omega) (by omega)
    (by omega)
  have hval := nibs_of_sum (op := BitVec.ofNat 16 (4096 * a + c)) (a := a) (b := 0) (c := c / 16) (d := c % 16) ha
    (by omega) (by omega) (by omega) (by omega)
  refine and_eq_of_nibs ?_ ?_ ?_ ?_
  · rw [hval.2.2.2, hop.2.2.2, show nib 0 0xF0FF = BitVec.allOnes 4 from by decide, BitVec.and_allOnes]
  · rw [hval.2.2.1, hop.2.2.1, show nib 1 0xF0FF = BitVec.allOnes 4 from by decide, BitVec.and_allOnes]
  · rw [hval.2.1, show nib 2 0xF0FF = 0 from by decide]; simp
  · rw [hval.1, hop.1, show nib 3 0xF0FF = BitVec.allOnes 4 from by decide, BitVec.and_allOnes]

theorem fieldX_eq {op : Word} {x : Reg} (h : op.toNat / 256 % 16 = x.val) : fieldX op = x :=
  Fin.ext (by rw [fieldX_val, h])

theorem fieldY_eq {op : Word} {y : Reg} (h : op.toNat / 16 % 16 = y.val) : fieldY op = y :=
  Fin.ext (by rw [fieldY_val, h])

theorem fieldNN_eq {op : Word} {nn : Byte} (h : op.toNat % 256 = nn.toNat) : fieldNN op = nn :=
  BitVec.eq_of_toNat_eq (by rw [fieldNN_toNat, h])

theorem fieldNNN_eq {op : Word} {nnn : Addr12} (h : op.toNat % 4096 = nnn.toNat) : fieldNNN op = nnn :=
  BitVec.eq_of_toNat_eq (by rw [fieldNNN_toNat, h])

theorem fieldN_eq {op : Word} {n : BitVec 4} (h : op.toNat % 16 = n.toNat) : fieldN op = n :=
  BitVec.eq_of_toNat_eq (by rw [fieldN_toNat, h])

end Sys2Proof
end

