-- ==== Sys2Proof/Laws/Display.lean ====
section
/-!
SUPPORT. The laws of the display: what flipping one pixel does, and what plotting and drawing do to every pixel and to
the collision.
-/

namespace Sys2Proof.Machine

/-- Two displays with the same pixels are the same. -/
theorem display_ext {d e : Vector (BitVec 64) 32} (h : ∀ x y, x < 64 → y < 32 → pixelOf d x y = pixelOf e x y) :
    d = e := by
  apply Vector.ext
  intro y hy
  apply BitVec.eq_of_getLsbD_eq
  intro x hx
  have := h x y hx hy
  simpa [pixelOf, hy] using this

/-- A pixel outside the grid is off (R242). -/
theorem pixelOf_outside (d : Vector (BitVec 64) 32) {x y : Nat} (h : ¬(x < 64 ∧ y < 32)) : pixelOf d x y = false := by
  unfold pixelOf
  split
  · apply BitVec.getLsbD_of_ge
    omega
  · rfl

/-- Flipping a pixel of the grid changes that pixel and no other. -/
theorem pixelOf_flipPixel (d : Vector (BitVec 64) 32) {px py : Nat} (hx : px < 64) (hy : py < 32) (x y : Nat) :
    pixelOf (flipPixel d px py) x y = (pixelOf d x y ^^ decide (px = x ∧ py = y)) := by
  simp only [flipPixel, hy, dite_true, pixelOf]
  by_cases hyy : y < 32
  · simp only [hyy, dite_true, Vector.getElem_set]
    by_cases hpy : py = y
    · subst hpy
      simp [BitVec.getLsbD_xor, BitVec.getLsbD_twoPow]
      intro h
      subst h
      simp [hx]
    · simp [hpy]
  · have : ¬ py = y := by omega
    simp [hyy, this]

/-- A cell that a sprite pixel is placed on lies on the display (R193). -/
theorem place_inside {edge : SpriteEdge} {x y px py : Nat} (h : place edge x y = some (px, py)) :
    px < 64 ∧ py < 32 := by
  cases edge with
  | wrap =>
    simp only [place, Option.some.injEq, Prod.mk.injEq] at h
    have := Nat.mod_lt x (y := 64) (by decide)
    have := Nat.mod_lt y (y := 32) (by decide)
    simp only [dispW, dispH] at h
    omega
  | clip =>
    simp only [place] at h
    split at h
    · next hc =>
      simp only [Option.some.injEq, Prod.mk.injEq] at h
      simp only [dispW, dispH] at hc
      omega
    · cases h

/-- What plotting one set sprite bit does (R192). -/
theorem plot_spec (edge : SpriteEdge) (x y : Nat) (acc : Vector (BitVec 64) 32 × Bool) :
    (∀ px py, pixelOf (plot edge x y acc).1 px py =
      (pixelOf acc.1 px py ^^ decide (place edge x y = some (px, py)))) ∧
    ((plot edge x y acc).2 = true ↔
      acc.2 = true ∨ ∃ px py, place edge x y = some (px, py) ∧ pixelOf acc.1 px py = true) := by
  unfold plot
  cases hp : place edge x y with
  | none => simp
  | some c =>
    obtain ⟨cx, cy⟩ := c
    obtain ⟨hx, hy⟩ := place_inside hp
    refine ⟨fun px py => ?_, ?_⟩
    · simp [pixelOf_flipPixel _ hx hy]
    · simp only [Bool.or_eq_true, Option.some.injEq, Prod.mk.injEq]
      constructor
      · rintro (h | h)
        · exact .inl h
        · exact .inr ⟨cx, cy, ⟨rfl, rfl⟩, h⟩
      · rintro (h | ⟨px, py, ⟨rfl, rfl⟩, h⟩)
        · exact .inl h
        · exact .inr h

/-! ## A whole sprite -/

/-- Two sprite pixels less than a screen apart that fall on one cell are the same pixel (R193). -/
theorem place_inj {edge : SpriteEdge} {x y x' y' : Nat} {p : Nat × Nat} (h : place edge x y = some p)
    (h' : place edge x' y' = some p) (hx : x < x' + 64) (hx' : x' < x + 64) (hy : y < y' + 32)
    (hy' : y' < y + 32) : x = x' ∧ y = y' := by
  obtain ⟨px, py⟩ := p
  cases edge with
  | wrap =>
    simp only [place, Option.some.injEq, Prod.mk.injEq, dispW, dispH] at h h'
    omega
  | clip =>
    simp only [place] at h h'
    split at h <;> split at h' <;> simp only [Option.some.injEq, Prod.mk.injEq, reduceCtorEq] at h h'
    omega

/-- Column `c` of `row` is set and falls on (px, py). -/
def ColCovers (edge : SpriteEdge) (x0 y : Nat) (row : Byte) (px py c : Nat) : Prop :=
  row.getLsbD (7 - c) = true ∧ place edge (x0 + c) y = some (px, py)

/-- What one column of one row does to every pixel and to the collision. -/
theorem col_spec (edge : SpriteEdge) (x0 y : Nat) (row : Byte) (c : Nat) (acc : Vector (BitVec 64) 32 × Bool) :
    (∀ px py, (ColCovers edge x0 y row px py c →
        pixelOf (if row.getLsbD (7 - c) then plot edge (x0 + c) y acc else acc).1 px py = !pixelOf acc.1 px py) ∧
      (¬ColCovers edge x0 y row px py c →
        pixelOf (if row.getLsbD (7 - c) then plot edge (x0 + c) y acc else acc).1 px py = pixelOf acc.1 px py)) ∧
    ((if row.getLsbD (7 - c) then plot edge (x0 + c) y acc else acc).2 = true ↔
      acc.2 = true ∨ ∃ px py, ColCovers edge x0 y row px py c ∧ pixelOf acc.1 px py = true) := by
  obtain ⟨hpix, hhit⟩ := plot_spec edge (x0 + c) y acc
  by_cases hb : row.getLsbD (7 - c) = true
  · simp only [hb, if_true, ColCovers, true_and]
    refine ⟨fun px py => ⟨fun h => ?_, fun h => ?_⟩, hhit⟩ <;> rw [hpix] <;> simp [h]
  · simp [hb, ColCovers]

/-- What drawing the columns `cs` of one row does: the set ones are flipped, once each (R192). -/
theorem drawCols_spec (edge : SpriteEdge) (x0 y : Nat) (row : Byte) (cs : List Nat) (hn : cs.Nodup)
    (h8 : ∀ c ∈ cs, c < 8) (acc : Vector (BitVec 64) 32 × Bool) :
    (∀ px py, ((∃ c ∈ cs, ColCovers edge x0 y row px py c) →
        pixelOf (drawCols edge x0 y row acc cs).1 px py = !pixelOf acc.1 px py) ∧
      ((¬∃ c ∈ cs, ColCovers edge x0 y row px py c) →
        pixelOf (drawCols edge x0 y row acc cs).1 px py = pixelOf acc.1 px py)) ∧
    ((drawCols edge x0 y row acc cs).2 = true ↔
      acc.2 = true ∨ ∃ px py, (∃ c ∈ cs, ColCovers edge x0 y row px py c) ∧ pixelOf acc.1 px py = true) := by
  induction cs generalizing acc with
  | nil => simp [drawCols]
  | cons c cs ih =>
    obtain ⟨hcn, hn'⟩ := List.nodup_cons.mp hn
    obtain ⟨hpix, hhit⟩ := col_spec edge x0 y row c acc
    obtain ⟨ihpix, ihhit⟩ := ih hn' (fun d hd => h8 d (List.mem_cons_of_mem c hd))
      (if row.getLsbD (7 - c) then plot edge (x0 + c) y acc else acc)
    have hapart : ∀ px py, ColCovers edge x0 y row px py c → ¬∃ d ∈ cs, ColCovers edge x0 y row px py d := by
      rintro px py ⟨_, hc⟩ ⟨d, hd, _, hdp⟩
      have := h8 c List.mem_cons_self
      have := h8 d (List.mem_cons_of_mem c hd)
      have := place_inj hc hdp (by omega) (by omega) (by omega) (by omega)
      exact hcn (by rw [show c = d by omega]; exact hd)
    rw [drawCols]
    refine ⟨fun px py => ⟨?_, ?_⟩, ?_⟩
    · rintro ⟨d, hd, hcov⟩
      rcases List.mem_cons.mp hd with rfl | hd
      · rw [(ihpix px py).2 (hapart px py hcov), (hpix px py).1 hcov]
      · rw [(ihpix px py).1 ⟨d, hd, hcov⟩, (hpix px py).2 (fun h => hapart px py h ⟨d, hd, hcov⟩)]
    · intro hnot
      rw [(ihpix px py).2 (fun ⟨d, hd, h⟩ => hnot ⟨d, List.mem_cons_of_mem c hd, h⟩),
        (hpix px py).2 (fun h => hnot ⟨c, List.mem_cons_self, h⟩)]
    · rw [ihhit, hhit]
      constructor
      · rintro ((h | ⟨px, py, hc, hp⟩) | ⟨px, py, ⟨d, hd, hcov⟩, hp⟩)
        · exact .inl h
        · exact .inr ⟨px, py, ⟨c, List.mem_cons_self, hc⟩, hp⟩
        · rw [(hpix px py).2 (fun h => hapart px py h ⟨d, hd, hcov⟩)] at hp
          exact .inr ⟨px, py, ⟨d, List.mem_cons_of_mem c hd, hcov⟩, hp⟩
      · rintro (h | ⟨px, py, ⟨d, hd, hcov⟩, hp⟩)
        · exact .inl (.inl h)
        · rcases List.mem_cons.mp hd with rfl | hd
          · exact .inl (.inr ⟨px, py, hcov, hp⟩)
          · refine .inr ⟨px, py, ⟨d, hd, hcov⟩, ?_⟩
            rw [(hpix px py).2 (fun h => hapart px py h ⟨d, hd, hcov⟩)]
            exact hp

/-- A set bit of the sprite `rows`, with its top left corner at (x0, y0), falls on (px, py). -/
def SpriteCovers (edge : SpriteEdge) (x0 y0 : Nat) (rows : List Byte) (px py : Nat) : Prop :=
  ∃ r row c, rows[r]? = some row ∧ c < 8 ∧ ColCovers edge x0 (y0 + r) row px py c

theorem spriteCovers_cons (edge : SpriteEdge) (x0 y0 : Nat) (row : Byte) (rows : List Byte) (px py : Nat) :
    SpriteCovers edge x0 y0 (row :: rows) px py ↔
      (∃ c, c < 8 ∧ ColCovers edge x0 y0 row px py c) ∨ SpriteCovers edge x0 (y0 + 1) rows px py := by
  constructor
  · rintro ⟨r, w, c, hr, hc, hcov⟩
    cases r with
    | zero => simp only [List.getElem?_cons_zero, Option.some.injEq] at hr; subst hr; exact .inl ⟨c, hc, hcov⟩
    | succ r =>
      rw [List.getElem?_cons_succ] at hr
      exact .inr ⟨r, w, c, hr, hc, by rwa [show y0 + 1 + r = y0 + (r + 1) by omega]⟩
  · rintro (⟨c, hc, hcov⟩ | ⟨r, w, c, hr, hc, hcov⟩)
    · exact ⟨0, row, c, rfl, hc, hcov⟩
    · exact ⟨r + 1, w, c, by rwa [List.getElem?_cons_succ], hc, by rwa [show y0 + (r + 1) = y0 + 1 + r by omega]⟩

/-- What drawing the rows of a sprite no taller than the screen does: every covered pixel is flipped, and the
collision is whether a covered pixel was on (R192, R193). -/
theorem drawRows_spec (edge : SpriteEdge) (x0 : Nat) (rows : List Byte) (y0 : Nat) (hlen : rows.length ≤ 32)
    (acc : Vector (BitVec 64) 32 × Bool) :
    (∀ px py, (SpriteCovers edge x0 y0 rows px py →
        pixelOf (drawRows edge x0 y0 acc rows).1 px py = !pixelOf acc.1 px py) ∧
      (¬SpriteCovers edge x0 y0 rows px py →
        pixelOf (drawRows edge x0 y0 acc rows).1 px py = pixelOf acc.1 px py)) ∧
    ((drawRows edge x0 y0 acc rows).2 = true ↔
      acc.2 = true ∨ ∃ px py, SpriteCovers edge x0 y0 rows px py ∧ pixelOf acc.1 px py = true) := by
  induction rows generalizing acc y0 with
  | nil => simp [drawRows, SpriteCovers]
  | cons row rows ih =>
    simp only [List.length_cons] at hlen
    obtain ⟨hpix, hhit⟩ := drawCols_spec edge x0 y0 row [0, 1, 2, 3, 4, 5, 6, 7] (by decide)
      (by decide) acc
    have hmem : ∀ px py, (∃ c ∈ [0, 1, 2, 3, 4, 5, 6, 7], ColCovers edge x0 y0 row px py c) ↔
        ∃ c, c < 8 ∧ ColCovers edge x0 y0 row px py c := by
      intro px py
      constructor
      · rintro ⟨c, hc, h⟩
        refine ⟨c, ?_, h⟩
        simp only [List.mem_cons, List.not_mem_nil, or_false] at hc
        omega
      · rintro ⟨c, hc, h⟩
        refine ⟨c, ?_, h⟩
        simp only [List.mem_cons, List.not_mem_nil, or_false]
        omega
    simp only [hmem] at hpix hhit
    obtain ⟨ihpix, ihhit⟩ := ih (y0 + 1) (by omega) (drawCols edge x0 y0 row acc [0, 1, 2, 3, 4, 5, 6, 7])
    have hapart : ∀ px py, (∃ c, c < 8 ∧ ColCovers edge x0 y0 row px py c) →
        ¬SpriteCovers edge x0 (y0 + 1) rows px py := by
      rintro px py ⟨c, hc, _, hp⟩ ⟨r, w, d, hr, hd, _, hq⟩
      have hr' : r < rows.length := (List.getElem?_eq_some_iff.mp hr).1
      have := place_inj hp hq (by omega) (by omega) (by omega) (by omega)
      omega
    rw [drawRows]
    refine ⟨fun px py => ⟨?_, ?_⟩, ?_⟩
    · rw [spriteCovers_cons]
      rintro (h | h)
      · rw [(ihpix px py).2 (hapart px py h), (hpix px py).1 h]
      · rw [(ihpix px py).1 h, (hpix px py).2 (fun hc => hapart px py hc h)]
    · rw [spriteCovers_cons]
      intro hnot
      rw [(ihpix px py).2 (fun h => hnot (.inr h)), (hpix px py).2 (fun h => hnot (.inl h))]
    · rw [ihhit, hhit]
      simp only [spriteCovers_cons]
      constructor
      · rintro ((h | ⟨px, py, hc, hp⟩) | ⟨px, py, hcov, hp⟩)
        · exact .inl h
        · exact .inr ⟨px, py, .inl hc, hp⟩
        · rw [(hpix px py).2 (fun hc => hapart px py hc hcov)] at hp
          exact .inr ⟨px, py, .inr hcov, hp⟩
      · rintro (h | ⟨px, py, hc | hcov, hp⟩)
        · exact .inl (.inl h)
        · exact .inl (.inr ⟨px, py, hc, hp⟩)
        · refine .inr ⟨px, py, hcov, ?_⟩
          rw [(hpix px py).2 (fun hc => hapart px py hc hcov)]
          exact hp

end Sys2Proof.Machine
end

