-- ==== Sys2Proof/Laws/Memory.lean ====
section
/-!
SUPPORT. The laws of memory: a read after a write, and that every operation keeps the canonical form.
-/

namespace Sys2Proof.Machine

/-! ## Reads after writes -/

theorem memLookup_memInsert (m : List Host.Cell) (a k : Nat) (b : Byte) :
    memLookup (memInsert m a b) k = if a = k then some b else memLookup m k := by
  induction m with
  | nil => simp [memInsert, memLookup]
  | cons c m ih =>
    obtain ⟨j, d⟩ := c
    simp only [memInsert]
    split
    · simp [memLookup]
    · split
      · next h => subst h; by_cases h2 : a = k <;> simp [memLookup, h2]
      · simp only [memLookup, ih]
        by_cases h1 : j = k
        · subst h1
          simp only [if_true]
          rw [if_neg]
          omega
        · simp [h1]

/-- A list whose cells all lie above an address holds no cell of it. -/
theorem memLookup_eq_none {fb lo : Nat} {m : List Host.Cell} (h : memWfFrom fb lo m = true) {k : Nat} (hk : k < lo) :
    memLookup m k = none := by
  induction m generalizing lo with
  | nil => rfl
  | cons c m ih =>
    obtain ⟨j, d⟩ := c
    simp only [memWfFrom, Bool.and_eq_true, decide_eq_true_eq] at h
    rw [memLookup, if_neg (by omega)]
    exact ih h.2 (by omega)

theorem memLookup_memErase {fb lo : Nat} {m : List Host.Cell} (h : memWfFrom fb lo m = true) (a k : Nat) :
    memLookup (memErase m a) k = if a = k then none else memLookup m k := by
  induction m generalizing lo with
  | nil => simp [memErase, memLookup]
  | cons c m ih =>
    obtain ⟨j, d⟩ := c
    simp only [memWfFrom, Bool.and_eq_true, decide_eq_true_eq] at h
    simp only [memErase]
    split
    · next hj =>
      subst hj
      by_cases hk : j = k
      · subst hk; simp [memLookup_eq_none h.2 (Nat.lt_succ_self j)]
      · simp [memLookup, hk]
    · next hj =>
      simp only [memLookup, ih h.2]
      by_cases hk : j = k
      · subst hk; simp [Ne.symm hj]
      · simp [hk]

/-- A read after a write gives the byte written, and every other byte is as before (R51). -/
theorem memGet_memSet {fb : Nat} {m : List Host.Cell} (h : memWf fb m = true) (a k : Nat) (b : Byte) :
    memGet fb (memSet fb m a b) k = if a = k then b else memGet fb m k := by
  unfold memSet memGet
  split
  · next hb =>
    rw [memLookup_memErase h]
    by_cases hk : a = k
    · subst hk; simp [hb]
    · simp [hk]
  · rw [memLookup_memInsert]
    by_cases hk : a = k <;> simp [hk]

/-! ## The canonical form -/

theorem memWfFrom_mono {fb lo lo' : Nat} (hlo : lo' ≤ lo) {m : List Host.Cell} (h : memWfFrom fb lo m = true) :
    memWfFrom fb lo' m = true := by
  cases m with
  | nil => rfl
  | cons c m =>
    obtain ⟨j, d⟩ := c
    simp only [memWfFrom, Bool.and_eq_true, decide_eq_true_eq] at h ⊢
    exact ⟨⟨⟨by omega, h.1.1.2⟩, h.1.2⟩, h.2⟩

theorem memWfFrom_memErase {fb lo : Nat} {m : List Host.Cell} (h : memWfFrom fb lo m = true) (a : Nat) :
    memWfFrom fb lo (memErase m a) = true := by
  induction m generalizing lo with
  | nil => rfl
  | cons c m ih =>
    obtain ⟨j, d⟩ := c
    simp only [memWfFrom, Bool.and_eq_true, decide_eq_true_eq] at h
    simp only [memErase]
    split
    · exact memWfFrom_mono (by omega) h.2
    · simp only [memWfFrom, Bool.and_eq_true, decide_eq_true_eq]
      exact ⟨h.1, ih h.2⟩

theorem memWfFrom_memInsert {fb lo : Nat} {m : List Host.Cell} (h : memWfFrom fb lo m = true) {a : Nat} {b : Byte}
    (hlo : lo ≤ a) (ha : a < memSize) (hb : b ≠ initialByte fb a) : memWfFrom fb lo (memInsert m a b) = true := by
  induction m generalizing lo with
  | nil => simp [memInsert, memWfFrom, hlo, ha, hb]
  | cons c m ih =>
    obtain ⟨j, d⟩ := c
    simp only [memWfFrom, Bool.and_eq_true, decide_eq_true_eq] at h
    simp only [memInsert]
    split
    · simp only [memWfFrom, Bool.and_eq_true, decide_eq_true_eq, bne_iff_ne]
      exact ⟨⟨⟨hlo, ha⟩, hb⟩, ⟨⟨by omega, h.1.1.2⟩, by simpa using h.1.2⟩, h.2⟩
    · split
      · next hj =>
        subst hj
        simp only [memWfFrom, Bool.and_eq_true, decide_eq_true_eq, bne_iff_ne]
        exact ⟨⟨⟨hlo, ha⟩, hb⟩, h.2⟩
      · simp only [memWfFrom, Bool.and_eq_true, decide_eq_true_eq]
        exact ⟨h.1, ih h.2 (by omega)⟩

/-- A write inside memory keeps the canonical form. -/
theorem memWf_memSet {fb : Nat} {m : List Host.Cell} (h : memWf fb m = true) {a : Nat} (ha : a < memSize) (b : Byte) :
    memWf fb (memSet fb m a b) = true := by
  unfold memSet
  split
  · exact memWfFrom_memErase h a
  · next hb => exact memWfFrom_memInsert h (Nat.zero_le a) ha hb

/-- A block write inside memory keeps the canonical form. -/
theorem memWf_memSetList {fb : Nat} (bs : List Byte) {m : List Host.Cell} (h : memWf fb m = true) {a : Nat}
    (ha : a + bs.length ≤ memSize) : memWf fb (memSetList fb m a bs) = true := by
  induction bs generalizing m a with
  | nil => exact h
  | cons b bs ih =>
    simp only [List.length_cons] at ha
    exact ih (memWf_memSet h (by omega) b) (by omega)

/-- A read after a block write: the block's byte inside it, the old byte outside it (R51, R54). -/
theorem memGet_memSetList {fb : Nat} (bs : List Byte) {m : List Host.Cell} (h : memWf fb m = true) {a : Nat}
    (ha : a + bs.length ≤ memSize) (k : Nat) :
    memGet fb (memSetList fb m a bs) k =
      if a ≤ k ∧ k < a + bs.length then bs.getD (k - a) 0 else memGet fb m k := by
  induction bs generalizing m a with
  | nil => simp [memSetList]
  | cons b bs ih =>
    simp only [List.length_cons] at ha
    rw [memSetList, ih (memWf_memSet h (by omega) b) (by omega), memGet_memSet h]
    simp only [List.length_cons]
    by_cases hak : a = k
    · subst hak; simp
    · by_cases hin : a + 1 ≤ k ∧ k < a + 1 + bs.length
      · rw [if_pos hin, if_pos (by omega)]
        obtain ⟨j, rfl⟩ : ∃ j, k = a + 1 + j := ⟨k - (a + 1), by omega⟩
        rw [show a + 1 + j - (a + 1) = j by omega, show a + 1 + j - a = j + 1 by omega]
        simp
      · rw [if_neg hin, if_neg hak, if_neg (by omega)]

theorem memGetList_length (fb : Nat) (m : List Host.Cell) (a n : Nat) : (memGetList fb m a n).length = n := by
  induction n generalizing a with
  | zero => rfl
  | succ n ih => simp [memGetList, ih]

/-- The k-th byte of a block read is the byte at `a + k` (R54). -/
theorem memGetList_getD (fb : Nat) (m : List Host.Cell) (a n k : Nat) (hk : k < n) :
    (memGetList fb m a n).getD k 0 = memGet fb m (a + k) := by
  induction n generalizing a k with
  | zero => omega
  | succ n ih =>
    cases k with
    | zero => simp [memGetList]
    | succ k =>
      rw [memGetList, List.getD_cons_succ, ih (a + 1) k (by omega)]
      congr 1
      omega

/-! ## A ROM image -/

theorem memWfFrom_romCells (fb : Nat) (bs : List Byte) (a : Nat) (ha : a + bs.length ≤ memSize) :
    memWfFrom fb a (romCells fb a bs) = true := by
  induction bs generalizing a with
  | nil => rfl
  | cons b bs ih =>
    simp only [List.length_cons] at ha
    simp only [romCells]
    split
    · exact memWfFrom_mono (Nat.le_succ a) (ih (a + 1) (by omega))
    · next hb =>
      simp only [memWfFrom, Bool.and_eq_true, decide_eq_true_eq, bne_iff_ne]
      exact ⟨⟨⟨Nat.le_refl a, by omega⟩, hb⟩, ih (a + 1) (by omega)⟩

/-- A loaded ROM image is canonical (R271). -/
theorem memWf_romCells (fb : Nat) (bs : List Byte) (a : Nat) (ha : a + bs.length ≤ memSize) :
    memWf fb (romCells fb a bs) = true :=
  memWfFrom_mono (Nat.zero_le a) (memWfFrom_romCells fb bs a ha)

/-- Memory after a load: the ROM's bytes where it was copied, the initial content elsewhere (R271). -/
theorem memGet_romCells (fb : Nat) (bs : List Byte) (a k : Nat) (ha : a + bs.length ≤ memSize) :
    memGet fb (romCells fb a bs) k =
      if a ≤ k ∧ k < a + bs.length then bs.getD (k - a) 0 else initialByte fb k := by
  induction bs generalizing a with
  | nil => simp [romCells, memGet, memLookup]
  | cons b bs ih =>
    simp only [List.length_cons] at ha
    have hrec := ih (a + 1) (by omega)
    have habove := memLookup_eq_none (memWfFrom_romCells fb bs (a + 1) (by omega)) (Nat.lt_succ_self a)
    by_cases hak : a = k
    · subst hak
      by_cases hb : b = initialByte fb a
      · simp [romCells, hb, memGet, habove]
      · simp [romCells, hb, memGet, memLookup]
    · have hcell : memGet fb (romCells fb a (b :: bs)) k = memGet fb (romCells fb (a + 1) bs) k := by
        by_cases hb : b = initialByte fb a
        · simp [romCells, hb]
        · simp [romCells, hb, memGet, memLookup, hak]
      rw [hcell, hrec]
      simp only [List.length_cons]
      by_cases hin : a + 1 ≤ k ∧ k < a + 1 + bs.length
      · rw [if_pos hin, if_pos (by omega)]
        obtain ⟨j, rfl⟩ : ∃ j, k = a + 1 + j := ⟨k - (a + 1), by omega⟩
        rw [show a + 1 + j - (a + 1) = j by omega, show a + 1 + j - a = j + 1 by omega]
        simp
      · rw [if_neg hin, if_neg (by omega)]

/-! ## Equal memories are equal lists -/

theorem memGet_ne_initial {fb k : Nat} {b : Byte} {m : List Host.Cell} (hb : (b != initialByte fb k) = true) :
    memGet fb ((k, b) :: m) k ≠ initialByte fb k := by
  simpa [memGet, memLookup] using hb

theorem memGet_below {fb lo k : Nat} {m : List Host.Cell} (h : memWfFrom fb lo m = true) (hk : k < lo) :
    memGet fb m k = initialByte fb k := by
  simp [memGet, memLookup_eq_none h hk]

theorem memGet_cons_of_ne {fb j k : Nat} {d : Byte} {m : List Host.Cell} (h : j ≠ k) :
    memGet fb ((j, d) :: m) k = memGet fb m k := by
  simp [memGet, memLookup, h]

/-- Two canonical memories that read alike at every address are the same list. -/
theorem memWfFrom_ext {fb lo : Nat} {m m' : List Host.Cell} (h : memWfFrom fb lo m = true)
    (h' : memWfFrom fb lo m' = true) (heq : ∀ k, memGet fb m k = memGet fb m' k) : m = m' := by
  induction m generalizing lo m' with
  | nil =>
    cases m' with
    | nil => rfl
    | cons c m' =>
      obtain ⟨j, d⟩ := c
      simp only [memWfFrom, Bool.and_eq_true] at h'
      exact absurd (heq j).symm (by simpa [memGet, memLookup] using h'.1.2)
  | cons c m ih =>
    obtain ⟨j, d⟩ := c
    simp only [memWfFrom, Bool.and_eq_true, decide_eq_true_eq] at h
    cases m' with
    | nil => exact absurd (heq j) (by simpa [memGet, memLookup] using h.1.2)
    | cons c' m' =>
      obtain ⟨j', d'⟩ := c'
      simp only [memWfFrom, Bool.and_eq_true, decide_eq_true_eq] at h'
      have hj : j = j' := by
        by_contra hne
        rcases Nat.lt_or_gt_of_ne hne with hlt | hgt
        · have := heq j
          rw [memGet_cons_of_ne (Ne.symm hne), memGet_below h'.2 (by omega)] at this
          exact memGet_ne_initial h.1.2 this
        · have := (heq j').symm
          rw [memGet_cons_of_ne hne, memGet_below h.2 (by omega)] at this
          exact memGet_ne_initial h'.1.2 this
      subst hj
      have hd : d = d' := by simpa [memGet, memLookup] using heq j
      subst hd
      have htail : m = m' := ih h.2 h'.2 (fun k => by
        by_cases hk : j = k
        · subst hk
          rw [memGet_below h.2 (Nat.lt_succ_self j), memGet_below h'.2 (Nat.lt_succ_self j)]
        · have := heq k
          rwa [memGet_cons_of_ne hk, memGet_cons_of_ne hk] at this)
      rw [htail]

/-- Equal memories are equal data. -/
theorem memWf_ext {fb : Nat} {m m' : List Host.Cell} (h : memWf fb m = true) (h' : memWf fb m' = true)
    (heq : ∀ k, memGet fb m k = memGet fb m' k) : m = m' := memWfFrom_ext h h' heq

end Sys2Proof.Machine
end

