-- ==== Sys2Proof/Laws/State.lean ====
section
/-!
SUPPORT. One lemma per field per named update of the state, each by rfl, so that no later proof unfolds a record
update.
-/

namespace Sys2Proof.Machine

variable (s : State)

/-! ### withV -/

@[simp] theorem State.withV_cfg (v : Vector Byte 16) : (s.withV v).cfg = s.cfg := rfl
@[simp] theorem State.withV_mem (v : Vector Byte 16) : (s.withV v).mem = s.mem := rfl
@[simp] theorem State.withV_v (v : Vector Byte 16) : (s.withV v).v = v := rfl
@[simp] theorem State.withV_i (v : Vector Byte 16) : (s.withV v).i = s.i := rfl
@[simp] theorem State.withV_pc (v : Vector Byte 16) : (s.withV v).pc = s.pc := rfl
@[simp] theorem State.withV_sp (v : Vector Byte 16) : (s.withV v).sp = s.sp := rfl
@[simp] theorem State.withV_stack (v : Vector Byte 16) : (s.withV v).stack = s.stack := rfl
@[simp] theorem State.withV_dt (v : Vector Byte 16) : (s.withV v).dt = s.dt := rfl
@[simp] theorem State.withV_st (v : Vector Byte 16) : (s.withV v).st = s.st := rfl
@[simp] theorem State.withV_display (v : Vector Byte 16) : (s.withV v).display = s.display := rfl
@[simp] theorem State.withV_keys (v : Vector Byte 16) : (s.withV v).keys = s.keys := rfl
@[simp] theorem State.withV_kw (v : Vector Byte 16) : (s.withV v).kw = s.kw := rfl
@[simp] theorem State.withV_romBuf (v : Vector Byte 16) : (s.withV v).romBuf = s.romBuf := rfl
@[simp] theorem State.withV_draws (v : Vector Byte 16) : (s.withV v).draws = s.draws := rfl
@[simp] theorem State.withV_cyclesLeft (v : Vector Byte 16) : (s.withV v).cyclesLeft = s.cyclesLeft := rfl

/-! ### withI -/

@[simp] theorem State.withI_cfg (w : Word) : (s.withI w).cfg = s.cfg := rfl
@[simp] theorem State.withI_mem (w : Word) : (s.withI w).mem = s.mem := rfl
@[simp] theorem State.withI_v (w : Word) : (s.withI w).v = s.v := rfl
@[simp] theorem State.withI_i (w : Word) : (s.withI w).i = w := rfl
@[simp] theorem State.withI_pc (w : Word) : (s.withI w).pc = s.pc := rfl
@[simp] theorem State.withI_sp (w : Word) : (s.withI w).sp = s.sp := rfl
@[simp] theorem State.withI_stack (w : Word) : (s.withI w).stack = s.stack := rfl
@[simp] theorem State.withI_dt (w : Word) : (s.withI w).dt = s.dt := rfl
@[simp] theorem State.withI_st (w : Word) : (s.withI w).st = s.st := rfl
@[simp] theorem State.withI_display (w : Word) : (s.withI w).display = s.display := rfl
@[simp] theorem State.withI_keys (w : Word) : (s.withI w).keys = s.keys := rfl
@[simp] theorem State.withI_kw (w : Word) : (s.withI w).kw = s.kw := rfl
@[simp] theorem State.withI_romBuf (w : Word) : (s.withI w).romBuf = s.romBuf := rfl
@[simp] theorem State.withI_draws (w : Word) : (s.withI w).draws = s.draws := rfl
@[simp] theorem State.withI_cyclesLeft (w : Word) : (s.withI w).cyclesLeft = s.cyclesLeft := rfl

/-! ### withPc -/

@[simp] theorem State.withPc_cfg (w : Word) : (s.withPc w).cfg = s.cfg := rfl
@[simp] theorem State.withPc_mem (w : Word) : (s.withPc w).mem = s.mem := rfl
@[simp] theorem State.withPc_v (w : Word) : (s.withPc w).v = s.v := rfl
@[simp] theorem State.withPc_i (w : Word) : (s.withPc w).i = s.i := rfl
@[simp] theorem State.withPc_pc (w : Word) : (s.withPc w).pc = w := rfl
@[simp] theorem State.withPc_sp (w : Word) : (s.withPc w).sp = s.sp := rfl
@[simp] theorem State.withPc_stack (w : Word) : (s.withPc w).stack = s.stack := rfl
@[simp] theorem State.withPc_dt (w : Word) : (s.withPc w).dt = s.dt := rfl
@[simp] theorem State.withPc_st (w : Word) : (s.withPc w).st = s.st := rfl
@[simp] theorem State.withPc_display (w : Word) : (s.withPc w).display = s.display := rfl
@[simp] theorem State.withPc_keys (w : Word) : (s.withPc w).keys = s.keys := rfl
@[simp] theorem State.withPc_kw (w : Word) : (s.withPc w).kw = s.kw := rfl
@[simp] theorem State.withPc_romBuf (w : Word) : (s.withPc w).romBuf = s.romBuf := rfl
@[simp] theorem State.withPc_draws (w : Word) : (s.withPc w).draws = s.draws := rfl
@[simp] theorem State.withPc_cyclesLeft (w : Word) : (s.withPc w).cyclesLeft = s.cyclesLeft := rfl

/-! ### withStack -/

@[simp] theorem State.withStack_cfg (p : Fin 17) (k : Vector Word 16) : (s.withStack p k).cfg = s.cfg := rfl
@[simp] theorem State.withStack_mem (p : Fin 17) (k : Vector Word 16) : (s.withStack p k).mem = s.mem := rfl
@[simp] theorem State.withStack_v (p : Fin 17) (k : Vector Word 16) : (s.withStack p k).v = s.v := rfl
@[simp] theorem State.withStack_i (p : Fin 17) (k : Vector Word 16) : (s.withStack p k).i = s.i := rfl
@[simp] theorem State.withStack_pc (p : Fin 17) (k : Vector Word 16) : (s.withStack p k).pc = s.pc := rfl
@[simp] theorem State.withStack_sp (p : Fin 17) (k : Vector Word 16) : (s.withStack p k).sp = p := rfl
@[simp] theorem State.withStack_stack (p : Fin 17) (k : Vector Word 16) : (s.withStack p k).stack = k := rfl
@[simp] theorem State.withStack_dt (p : Fin 17) (k : Vector Word 16) : (s.withStack p k).dt = s.dt := rfl
@[simp] theorem State.withStack_st (p : Fin 17) (k : Vector Word 16) : (s.withStack p k).st = s.st := rfl
@[simp] theorem State.withStack_display (p : Fin 17) (k : Vector Word 16) : (s.withStack p k).display = s.display := rfl
@[simp] theorem State.withStack_keys (p : Fin 17) (k : Vector Word 16) : (s.withStack p k).keys = s.keys := rfl
@[simp] theorem State.withStack_kw (p : Fin 17) (k : Vector Word 16) : (s.withStack p k).kw = s.kw := rfl
@[simp] theorem State.withStack_romBuf (p : Fin 17) (k : Vector Word 16) : (s.withStack p k).romBuf = s.romBuf := rfl
@[simp] theorem State.withStack_draws (p : Fin 17) (k : Vector Word 16) : (s.withStack p k).draws = s.draws := rfl
@[simp] theorem State.withStack_cyclesLeft (p : Fin 17) (k : Vector Word 16) : (s.withStack p k).cyclesLeft = s.cyclesLeft := rfl

/-! ### withDt -/

@[simp] theorem State.withDt_cfg (b : Byte) : (s.withDt b).cfg = s.cfg := rfl
@[simp] theorem State.withDt_mem (b : Byte) : (s.withDt b).mem = s.mem := rfl
@[simp] theorem State.withDt_v (b : Byte) : (s.withDt b).v = s.v := rfl
@[simp] theorem State.withDt_i (b : Byte) : (s.withDt b).i = s.i := rfl
@[simp] theorem State.withDt_pc (b : Byte) : (s.withDt b).pc = s.pc := rfl
@[simp] theorem State.withDt_sp (b : Byte) : (s.withDt b).sp = s.sp := rfl
@[simp] theorem State.withDt_stack (b : Byte) : (s.withDt b).stack = s.stack := rfl
@[simp] theorem State.withDt_dt (b : Byte) : (s.withDt b).dt = b := rfl
@[simp] theorem State.withDt_st (b : Byte) : (s.withDt b).st = s.st := rfl
@[simp] theorem State.withDt_display (b : Byte) : (s.withDt b).display = s.display := rfl
@[simp] theorem State.withDt_keys (b : Byte) : (s.withDt b).keys = s.keys := rfl
@[simp] theorem State.withDt_kw (b : Byte) : (s.withDt b).kw = s.kw := rfl
@[simp] theorem State.withDt_romBuf (b : Byte) : (s.withDt b).romBuf = s.romBuf := rfl
@[simp] theorem State.withDt_draws (b : Byte) : (s.withDt b).draws = s.draws := rfl
@[simp] theorem State.withDt_cyclesLeft (b : Byte) : (s.withDt b).cyclesLeft = s.cyclesLeft := rfl

/-! ### withSt -/

@[simp] theorem State.withSt_cfg (b : Byte) : (s.withSt b).cfg = s.cfg := rfl
@[simp] theorem State.withSt_mem (b : Byte) : (s.withSt b).mem = s.mem := rfl
@[simp] theorem State.withSt_v (b : Byte) : (s.withSt b).v = s.v := rfl
@[simp] theorem State.withSt_i (b : Byte) : (s.withSt b).i = s.i := rfl
@[simp] theorem State.withSt_pc (b : Byte) : (s.withSt b).pc = s.pc := rfl
@[simp] theorem State.withSt_sp (b : Byte) : (s.withSt b).sp = s.sp := rfl
@[simp] theorem State.withSt_stack (b : Byte) : (s.withSt b).stack = s.stack := rfl
@[simp] theorem State.withSt_dt (b : Byte) : (s.withSt b).dt = s.dt := rfl
@[simp] theorem State.withSt_st (b : Byte) : (s.withSt b).st = b := rfl
@[simp] theorem State.withSt_display (b : Byte) : (s.withSt b).display = s.display := rfl
@[simp] theorem State.withSt_keys (b : Byte) : (s.withSt b).keys = s.keys := rfl
@[simp] theorem State.withSt_kw (b : Byte) : (s.withSt b).kw = s.kw := rfl
@[simp] theorem State.withSt_romBuf (b : Byte) : (s.withSt b).romBuf = s.romBuf := rfl
@[simp] theorem State.withSt_draws (b : Byte) : (s.withSt b).draws = s.draws := rfl
@[simp] theorem State.withSt_cyclesLeft (b : Byte) : (s.withSt b).cyclesLeft = s.cyclesLeft := rfl

/-! ### withDisplay -/

@[simp] theorem State.withDisplay_cfg (d : Vector (BitVec 64) 32) : (s.withDisplay d).cfg = s.cfg := rfl
@[simp] theorem State.withDisplay_mem (d : Vector (BitVec 64) 32) : (s.withDisplay d).mem = s.mem := rfl
@[simp] theorem State.withDisplay_v (d : Vector (BitVec 64) 32) : (s.withDisplay d).v = s.v := rfl
@[simp] theorem State.withDisplay_i (d : Vector (BitVec 64) 32) : (s.withDisplay d).i = s.i := rfl
@[simp] theorem State.withDisplay_pc (d : Vector (BitVec 64) 32) : (s.withDisplay d).pc = s.pc := rfl
@[simp] theorem State.withDisplay_sp (d : Vector (BitVec 64) 32) : (s.withDisplay d).sp = s.sp := rfl
@[simp] theorem State.withDisplay_stack (d : Vector (BitVec 64) 32) : (s.withDisplay d).stack = s.stack := rfl
@[simp] theorem State.withDisplay_dt (d : Vector (BitVec 64) 32) : (s.withDisplay d).dt = s.dt := rfl
@[simp] theorem State.withDisplay_st (d : Vector (BitVec 64) 32) : (s.withDisplay d).st = s.st := rfl
@[simp] theorem State.withDisplay_display (d : Vector (BitVec 64) 32) : (s.withDisplay d).display = d := rfl
@[simp] theorem State.withDisplay_keys (d : Vector (BitVec 64) 32) : (s.withDisplay d).keys = s.keys := rfl
@[simp] theorem State.withDisplay_kw (d : Vector (BitVec 64) 32) : (s.withDisplay d).kw = s.kw := rfl
@[simp] theorem State.withDisplay_romBuf (d : Vector (BitVec 64) 32) : (s.withDisplay d).romBuf = s.romBuf := rfl
@[simp] theorem State.withDisplay_draws (d : Vector (BitVec 64) 32) : (s.withDisplay d).draws = s.draws := rfl
@[simp] theorem State.withDisplay_cyclesLeft (d : Vector (BitVec 64) 32) : (s.withDisplay d).cyclesLeft = s.cyclesLeft := rfl

/-! ### withKw -/

@[simp] theorem State.withKw_cfg (b : Bool) : (s.withKw b).cfg = s.cfg := rfl
@[simp] theorem State.withKw_mem (b : Bool) : (s.withKw b).mem = s.mem := rfl
@[simp] theorem State.withKw_v (b : Bool) : (s.withKw b).v = s.v := rfl
@[simp] theorem State.withKw_i (b : Bool) : (s.withKw b).i = s.i := rfl
@[simp] theorem State.withKw_pc (b : Bool) : (s.withKw b).pc = s.pc := rfl
@[simp] theorem State.withKw_sp (b : Bool) : (s.withKw b).sp = s.sp := rfl
@[simp] theorem State.withKw_stack (b : Bool) : (s.withKw b).stack = s.stack := rfl
@[simp] theorem State.withKw_dt (b : Bool) : (s.withKw b).dt = s.dt := rfl
@[simp] theorem State.withKw_st (b : Bool) : (s.withKw b).st = s.st := rfl
@[simp] theorem State.withKw_display (b : Bool) : (s.withKw b).display = s.display := rfl
@[simp] theorem State.withKw_keys (b : Bool) : (s.withKw b).keys = s.keys := rfl
@[simp] theorem State.withKw_kw (b : Bool) : (s.withKw b).kw = b := rfl
@[simp] theorem State.withKw_romBuf (b : Bool) : (s.withKw b).romBuf = s.romBuf := rfl
@[simp] theorem State.withKw_draws (b : Bool) : (s.withKw b).draws = s.draws := rfl
@[simp] theorem State.withKw_cyclesLeft (b : Bool) : (s.withKw b).cyclesLeft = s.cyclesLeft := rfl

/-! ### withMem -/

@[simp] theorem State.withMem_cfg (m : List Host.Cell) : (s.withMem m).cfg = s.cfg := rfl
@[simp] theorem State.withMem_mem (m : List Host.Cell) : (s.withMem m).mem = m := rfl
@[simp] theorem State.withMem_v (m : List Host.Cell) : (s.withMem m).v = s.v := rfl
@[simp] theorem State.withMem_i (m : List Host.Cell) : (s.withMem m).i = s.i := rfl
@[simp] theorem State.withMem_pc (m : List Host.Cell) : (s.withMem m).pc = s.pc := rfl
@[simp] theorem State.withMem_sp (m : List Host.Cell) : (s.withMem m).sp = s.sp := rfl
@[simp] theorem State.withMem_stack (m : List Host.Cell) : (s.withMem m).stack = s.stack := rfl
@[simp] theorem State.withMem_dt (m : List Host.Cell) : (s.withMem m).dt = s.dt := rfl
@[simp] theorem State.withMem_st (m : List Host.Cell) : (s.withMem m).st = s.st := rfl
@[simp] theorem State.withMem_display (m : List Host.Cell) : (s.withMem m).display = s.display := rfl
@[simp] theorem State.withMem_keys (m : List Host.Cell) : (s.withMem m).keys = s.keys := rfl
@[simp] theorem State.withMem_kw (m : List Host.Cell) : (s.withMem m).kw = s.kw := rfl
@[simp] theorem State.withMem_romBuf (m : List Host.Cell) : (s.withMem m).romBuf = s.romBuf := rfl
@[simp] theorem State.withMem_draws (m : List Host.Cell) : (s.withMem m).draws = s.draws := rfl
@[simp] theorem State.withMem_cyclesLeft (m : List Host.Cell) : (s.withMem m).cyclesLeft = s.cyclesLeft := rfl

/-! ### withKeys -/

@[simp] theorem State.withKeys_cfg (k : Vector Bool 16) : (s.withKeys k).cfg = s.cfg := rfl
@[simp] theorem State.withKeys_mem (k : Vector Bool 16) : (s.withKeys k).mem = s.mem := rfl
@[simp] theorem State.withKeys_v (k : Vector Bool 16) : (s.withKeys k).v = s.v := rfl
@[simp] theorem State.withKeys_i (k : Vector Bool 16) : (s.withKeys k).i = s.i := rfl
@[simp] theorem State.withKeys_pc (k : Vector Bool 16) : (s.withKeys k).pc = s.pc := rfl
@[simp] theorem State.withKeys_sp (k : Vector Bool 16) : (s.withKeys k).sp = s.sp := rfl
@[simp] theorem State.withKeys_stack (k : Vector Bool 16) : (s.withKeys k).stack = s.stack := rfl
@[simp] theorem State.withKeys_dt (k : Vector Bool 16) : (s.withKeys k).dt = s.dt := rfl
@[simp] theorem State.withKeys_st (k : Vector Bool 16) : (s.withKeys k).st = s.st := rfl
@[simp] theorem State.withKeys_display (k : Vector Bool 16) : (s.withKeys k).display = s.display := rfl
@[simp] theorem State.withKeys_keys (k : Vector Bool 16) : (s.withKeys k).keys = k := rfl
@[simp] theorem State.withKeys_kw (k : Vector Bool 16) : (s.withKeys k).kw = s.kw := rfl
@[simp] theorem State.withKeys_romBuf (k : Vector Bool 16) : (s.withKeys k).romBuf = s.romBuf := rfl
@[simp] theorem State.withKeys_draws (k : Vector Bool 16) : (s.withKeys k).draws = s.draws := rfl
@[simp] theorem State.withKeys_cyclesLeft (k : Vector Bool 16) : (s.withKeys k).cyclesLeft = s.cyclesLeft := rfl

/-! ### withDraws -/

@[simp] theorem State.withDraws_cfg (n : Nat) : (s.withDraws n).cfg = s.cfg := rfl
@[simp] theorem State.withDraws_mem (n : Nat) : (s.withDraws n).mem = s.mem := rfl
@[simp] theorem State.withDraws_v (n : Nat) : (s.withDraws n).v = s.v := rfl
@[simp] theorem State.withDraws_i (n : Nat) : (s.withDraws n).i = s.i := rfl
@[simp] theorem State.withDraws_pc (n : Nat) : (s.withDraws n).pc = s.pc := rfl
@[simp] theorem State.withDraws_sp (n : Nat) : (s.withDraws n).sp = s.sp := rfl
@[simp] theorem State.withDraws_stack (n : Nat) : (s.withDraws n).stack = s.stack := rfl
@[simp] theorem State.withDraws_dt (n : Nat) : (s.withDraws n).dt = s.dt := rfl
@[simp] theorem State.withDraws_st (n : Nat) : (s.withDraws n).st = s.st := rfl
@[simp] theorem State.withDraws_display (n : Nat) : (s.withDraws n).display = s.display := rfl
@[simp] theorem State.withDraws_keys (n : Nat) : (s.withDraws n).keys = s.keys := rfl
@[simp] theorem State.withDraws_kw (n : Nat) : (s.withDraws n).kw = s.kw := rfl
@[simp] theorem State.withDraws_romBuf (n : Nat) : (s.withDraws n).romBuf = s.romBuf := rfl
@[simp] theorem State.withDraws_draws (n : Nat) : (s.withDraws n).draws = n := rfl
@[simp] theorem State.withDraws_cyclesLeft (n : Nat) : (s.withDraws n).cyclesLeft = s.cyclesLeft := rfl

/-! ### withCyclesLeft -/

@[simp] theorem State.withCyclesLeft_cfg (n : Nat) : (s.withCyclesLeft n).cfg = s.cfg := rfl
@[simp] theorem State.withCyclesLeft_mem (n : Nat) : (s.withCyclesLeft n).mem = s.mem := rfl
@[simp] theorem State.withCyclesLeft_v (n : Nat) : (s.withCyclesLeft n).v = s.v := rfl
@[simp] theorem State.withCyclesLeft_i (n : Nat) : (s.withCyclesLeft n).i = s.i := rfl
@[simp] theorem State.withCyclesLeft_pc (n : Nat) : (s.withCyclesLeft n).pc = s.pc := rfl
@[simp] theorem State.withCyclesLeft_sp (n : Nat) : (s.withCyclesLeft n).sp = s.sp := rfl
@[simp] theorem State.withCyclesLeft_stack (n : Nat) : (s.withCyclesLeft n).stack = s.stack := rfl
@[simp] theorem State.withCyclesLeft_dt (n : Nat) : (s.withCyclesLeft n).dt = s.dt := rfl
@[simp] theorem State.withCyclesLeft_st (n : Nat) : (s.withCyclesLeft n).st = s.st := rfl
@[simp] theorem State.withCyclesLeft_display (n : Nat) : (s.withCyclesLeft n).display = s.display := rfl
@[simp] theorem State.withCyclesLeft_keys (n : Nat) : (s.withCyclesLeft n).keys = s.keys := rfl
@[simp] theorem State.withCyclesLeft_kw (n : Nat) : (s.withCyclesLeft n).kw = s.kw := rfl
@[simp] theorem State.withCyclesLeft_romBuf (n : Nat) : (s.withCyclesLeft n).romBuf = s.romBuf := rfl
@[simp] theorem State.withCyclesLeft_draws (n : Nat) : (s.withCyclesLeft n).draws = s.draws := rfl
@[simp] theorem State.withCyclesLeft_cyclesLeft (n : Nat) : (s.withCyclesLeft n).cyclesLeft = n := rfl

end Sys2Proof.Machine
end

