-- ==== Sys2Proof/Laws/Ops.lean ====
section
/-!
SUPPORT. One lemma per shared operation that says once everything it can do; proofs cite it instead of unfolding the
operation.
-/

namespace Sys2Proof.Machine

/-! ## Registers -/

@[simp] theorem State.getV_setV (s : State) (x r : Reg) (b : Byte) :
    (s.setV x b).getV r = if r = x then b else s.getV r := by
  simp [State.setV, State.getV, Vector.getElem_set, Fin.ext_iff, eq_comm]

@[simp] theorem State.getV_setVF (s : State) (x r : Reg) (b f : Byte) :
    (s.setVF x b f).getV r = if r = regF then f else if r = x then b else s.getV r := by
  simp [State.setVF]

theorem State.getV_withV (s : State) (v : Vector Byte 16) (r : Reg) : (s.withV v).getV r = v[r] := rfl

/-- Two register files that read alike are the same. -/
theorem regs_ext {v w : Vector Byte 16} (h : ∀ r : Reg, v[r] = w[r]) : v = w := by
  apply Vector.ext
  intro k hk
  exact h ⟨k, hk⟩

/-- A register write changes the register file and nothing else. -/
theorem State.setV_frame (s : State) (x : Reg) (b : Byte) : s.setV x b = s.withV (s.setV x b).v := rfl

/-- A result and its flag change the register file and nothing else. -/
theorem State.setVF_frame (s : State) (x : Reg) (b f : Byte) : s.setVF x b f = s.withV (s.setVF x b f).v := rfl

/-- A block load into registers: byte j goes to register k + j, the others keep their values, and nothing but the
register file changes. -/
theorem State.setVs_spec (bs : List Byte) (s : State) (k : Nat) (hk : k + bs.length ≤ 16) :
    (∀ r : Reg, (s.setVs k bs).getV r =
      if k ≤ r.val ∧ r.val < k + bs.length then bs.getD (r.val - k) 0 else s.getV r) ∧
    s.setVs k bs = s.withV (s.setVs k bs).v := by
  induction bs generalizing s k with
  | nil => simp [State.setVs]; rfl
  | cons b bs ih =>
    simp only [List.length_cons] at hk
    have hk16 : k < 16 := by omega
    obtain ⟨hget, hframe⟩ := ih (s.setV ⟨k, hk16⟩ b) (k + 1) (by omega)
    simp only [State.setVs, hk16, dite_true]
    refine ⟨fun r => ?_, ?_⟩
    · rw [hget r, State.getV_setV]
      simp only [List.length_cons, Fin.ext_iff]
      by_cases hr : r.val = k
      · rw [if_neg (by omega), if_pos hr, if_pos (by omega), hr]
        simp
      · by_cases hin : k + 1 ≤ r.val ∧ r.val < k + 1 + bs.length
        · rw [if_pos hin, if_pos (by omega)]
          obtain ⟨j, hj⟩ : ∃ j, r.val = k + 1 + j := ⟨r.val - (k + 1), by omega⟩
          rw [hj, show k + 1 + j - (k + 1) = j by omega, show k + 1 + j - k = j + 1 by omega]
          simp
        · rw [if_neg hin, if_neg hr, if_neg (by omega)]
    · rw [hframe]
      rfl

theorem State.getVs_length (s : State) (n : Nat) (hn : n ≤ 16) : (s.getVs n).length = n := by
  simp [State.getVs, hn]

theorem State.getVs_getD (s : State) (n : Nat) (r : Reg) (hr : r.val < n) : (s.getVs n).getD r.val 0 = s.getV r := by
  simp [State.getVs, State.getV, List.getD_eq_getElem?_getD, hr]

/-! ## Memory -/

theorem checkRange_iff (a n : Nat) : checkRange a n = true ↔ n = 0 ∨ a + n ≤ memSize := by
  simp [checkRange]

theorem State.memRead_of_lt (s : State) {a : Nat} (h : a < memSize) :
    s.memRead a = some (memGet s.cfg.fontBase s.mem a) := by
  rw [State.memRead, if_pos h]

theorem State.memRead_of_ge (s : State) {a : Nat} (h : memSize ≤ a) : s.memRead a = none := by
  rw [State.memRead, if_neg (by omega)]

/-- Memory reads depend on the font base and the cells alone. -/
theorem State.memRead_congr {s t : State} (hc : t.cfg = s.cfg) (hm : t.mem = s.mem) (a : Nat) :
    t.memRead a = s.memRead a := by
  rw [State.memRead, State.memRead, hc, hm]

/-- What a block read answers (R54, R64). -/
theorem State.readBytes_spec (s : State) (a n : Nat) :
    (checkRange a n = true ∧ s.readBytes a n = some (memGetList s.cfg.fontBase s.mem a n)) ∨
    (checkRange a n = false ∧ s.readBytes a n = none) := by
  unfold State.readBytes
  cases checkRange a n <;> simp

/-- What a block write answers (R54, R64). -/
theorem State.writeBytes_spec (s : State) (a : Nat) (bs : List Byte) :
    (checkRange a bs.length = true ∧
      s.writeBytes a bs = some (s.withMem (memSetList s.cfg.fontBase s.mem a bs))) ∨
    (checkRange a bs.length = false ∧ s.writeBytes a bs = none) := by
  unfold State.writeBytes
  cases checkRange a bs.length <;> simp

/-- A block write keeps memory canonical. -/
theorem State.writeBytes_memWf {s t : State} {a : Nat} {bs : List Byte}
    (hw : memWf s.cfg.fontBase s.mem = true) (h : s.writeBytes a bs = some t) :
    memWf t.cfg.fontBase t.mem = true := by
  rcases s.writeBytes_spec a bs with ⟨hc, he⟩ | ⟨_, he⟩
  · rw [he, Option.some.injEq] at h
    subst h
    rcases (checkRange_iff a bs.length).mp hc with h0 | hle
    · rw [List.length_eq_zero_iff.mp h0]; exact hw
    · exact memWf_memSetList bs hw hle
  · rw [he] at h; cases h

/-! ## Call stack -/

/-- What a push answers (R27). -/
theorem State.push_spec (s : State) (w : Word) :
    (∃ h : s.sp.val < 16, s.push w =
      some (s.withStack ⟨s.sp.val + 1, Nat.succ_lt_succ h⟩ (s.stack.set s.sp.val w h))) ∨
    (s.sp.val = 16 ∧ s.push w = none) := by
  unfold State.push
  split
  · next h => exact .inl ⟨h, rfl⟩
  · have := s.sp.isLt
    exact .inr ⟨by omega, rfl⟩

/-- What a pop answers (R27): the entry it pops stays in place. -/
theorem State.pop_spec (s : State) :
    (∃ (h : s.sp.val - 1 < 16) (_ : 0 < s.sp.val), s.pop =
      some (s.stack[s.sp.val - 1]'h, s.withStack ⟨s.sp.val - 1, Nat.lt_succ_of_lt h⟩ s.stack)) ∨
    (s.sp.val = 0 ∧ s.pop = none) := by
  unfold State.pop
  split
  · next h => exact .inl ⟨by omega, h, rfl⟩
  · exact .inr ⟨by omega, rfl⟩

/-! ## Timers and keys -/

theorem timerTick_toNat (b : Byte) : (timerTick b).toNat = b.toNat - 1 := by
  unfold timerTick
  split
  · next h => subst h; rfl
  · next h =>
    have hpos : b.toNat ≠ (0 : Byte).toNat := fun h0 => h (BitVec.eq_of_toNat_eq h0)
    have := b.isLt
    rw [BitVec.toNat_sub, show (1 : Byte).toNat = 1 from rfl]
    rw [show (0 : Byte).toNat = 0 from rfl] at hpos
    omega

/-- The lowest pressed key is pressed and no lower key is (R215). -/
theorem State.lowestKey_some {s : State} {k : Fin 16} (h : s.lowestKey = some k) :
    s.key k = true ∧ ∀ j : Fin 16, j < k → s.key j = false := by
  obtain ⟨hk, i, hi, hget, hlt⟩ := List.find?_eq_some_iff_getElem.mp h
  refine ⟨hk, fun j hj => ?_⟩
  have hik : i = k.val := by
    have := congrArg Fin.val hget
    simpa using this
  have hj' : j.val < i := by rw [hik]; exact hj
  simpa using hlt j.val hj'

/-- No lowest key: none is pressed (R215). -/
theorem State.lowestKey_none {s : State} (h : s.lowestKey = none) (k : Fin 16) : s.key k = false := by
  have := List.find?_eq_none.mp h k (List.mem_finRange k)
  simpa using this

/-! ## Fault, cycle and tick -/

@[simp] theorem State.advance_pc0 (s : State) : s.advance.pc0 = s.pc := by
  simp [State.advance, State.pc0]

/-- A fault leaves the Machine as it was before its cycle (R82). -/
@[simp] theorem State.advance_afterFault (s : State) : s.advance.afterFault = s := by
  simp [State.afterFault]
  rfl

theorem raise_eq (kind : Word → Fault) (s : State) : raise kind s = .fault (kind s.pc0) := rfl

/-- What a fetch answers: the big-endian word at PC, where both its bytes exist (R71, R81). -/
theorem State.fetch_spec (s : State) :
    (s.pc.toNat + 1 < memSize ∧ s.fetch = some (wordOfBytes (memGet s.cfg.fontBase s.mem s.pc.toNat)
      (memGet s.cfg.fontBase s.mem (s.pc.toNat + 1)))) ∨
    (memSize ≤ s.pc.toNat + 1 ∧ s.fetch = none) := by
  unfold State.fetch
  rcases s.readBytes_spec s.pc.toNat 2 with ⟨hc, he⟩ | ⟨hc, he⟩
  · left
    rw [he]
    have := (checkRange_iff _ _).mp hc
    exact ⟨by omega, rfl⟩
  · right
    rw [he]
    have : ¬ (checkRange s.pc.toNat 2 = true) := by simp [hc]
    rw [checkRange_iff] at this
    exact ⟨by omega, rfl⟩

/-- A fetch depends on PC, the font base and the cells alone. -/
theorem State.fetch_congr {s t : State} (hp : t.pc = s.pc) (hc : t.cfg = s.cfg) (hm : t.mem = s.mem) :
    t.fetch = s.fetch := by
  simp [State.fetch, State.readBytes, hp, hc, hm]

@[simp] theorem State.enterTick_fetch (s : State) : s.enterTick.fetch = s.fetch := by
  unfold State.enterTick
  split
  · exact State.fetch_congr rfl rfl rfl
  · rfl

/-- What a cycle can do (R81). -/
theorem cycle_cases (s : State) :
    (s.fetch = none ∧ cycle s = .fault (.outOfBoundsAddress s.pc)) ∨
    (∃ op, s.fetch = some op ∧
      ((∃ e, decode op = .error e ∧ cycle s = .fault (.unknownOpcode s.pc)) ∨
       (∃ i, decode op = .ok i ∧ cycle s = exec i s.advance))) := by
  unfold cycle
  cases hf : s.fetch with
  | none => exact .inl ⟨rfl, rfl⟩
  | some op =>
    refine .inr ⟨op, rfl, ?_⟩
    cases hd : decode op with
    | error e => exact .inl ⟨e, rfl, by simp [hd, decodeFault, raise]⟩
    | ok i => exact .inr ⟨i, rfl, by simp [hd]⟩

/-- What a step that goes on has done (R237). -/
theorem step_next {s t : State} (h : step s = .next t) :
    ∃ op i u, s.fetch = some op ∧ decode op = .ok i ∧ exec i s.enterTick.advance = .next u ∧
      t = u.withCyclesLeft (u.cyclesLeft - 1) := by
  unfold step at h
  rcases cycle_cases s.enterTick with ⟨_, hc⟩ | ⟨op, hf, ⟨e, _, hc⟩ | ⟨i, hd, hc⟩⟩
  · rw [hc] at h; cases h
  · rw [hc] at h; cases h
  · rw [hc] at h
    cases hx : exec i s.enterTick.advance with
    | next u =>
      rw [hx] at h
      cases h
      exact ⟨op, i, u, by simpa using hf, hd, hx, rfl⟩
    | fault f => rw [hx] at h; cases h
    | refused r => rw [hx] at h; cases h

end Sys2Proof.Machine
end

