-- ==== Sys2Proof/Laws/Exec.lean ====
section
/-!
SUPPORT. What an instruction that goes on leaves alone, said once for all of them.
-/

namespace Sys2Proof.Machine

/-- A block load changes the register file and nothing else. -/
theorem State.setVs_frame (bs : List Byte) (s : State) (k : Nat) : s.setVs k bs = s.withV (s.setVs k bs).v := by
  induction bs generalizing s k with
  | nil => rfl
  | cons b bs ih =>
    simp only [State.setVs]; split
    · rw [ih]; rfl
    · rfl

/-- Every instruction that goes on leaves the input vector, ROMBUF, the configuration and the tick's loop counter as they
were: its next state differs from the state before it in the other components alone. -/
theorem exec_frame {i : Instr} {s t : State} (h : exec i s = .next t) :
    t = { s with
      mem := t.mem, v := t.v, i := t.i, pc := t.pc, sp := t.sp, stack := t.stack, dt := t.dt, st := t.st
      display := t.display, kw := t.kw, draws := t.draws } := by
  cases i
  case ret =>
    rcases s.pop_spec with ⟨_, _, he⟩ | ⟨_, he⟩ <;> simp only [exec, execRet, he] at h
    · cases h; rfl
    · cases h
  case call nnn =>
    rcases s.push_spec s.pc with ⟨_, he⟩ | ⟨_, he⟩ <;> simp only [exec, execCall, he] at h
    · cases h; rfl
    · cases h
  case jpV0 nnn => simp only [exec, execJpV0] at h; split at h <;> cases h; rfl
  case drw x y n =>
    rcases s.readBytes_spec s.indexAddr n.toNat with ⟨_, he⟩ | ⟨_, he⟩ <;> simp only [exec, execDrw, he] at h
    · cases h; rfl
    · cases h
  case ldBVx x =>
    rcases s.writeBytes_spec s.indexAddr (decimalDigits (s.getV x)) with ⟨_, he⟩ | ⟨_, he⟩ <;>
      simp only [exec, execLdBVx, he] at h
    · cases h; rfl
    · cases h
  case storeRegs x =>
    rcases s.writeBytes_spec s.indexAddr (s.getVs (x.val + 1)) with ⟨_, he⟩ | ⟨_, he⟩ <;>
      simp only [exec, execStoreRegs, he] at h
    · cases h; unfold State.bumpIndex; split <;> rfl
    · cases h
  case loadRegs x =>
    rcases s.readBytes_spec s.indexAddr (x.val + 1) with ⟨_, he⟩ | ⟨_, he⟩ <;>
      simp only [exec, execLoadRegs, he] at h
    · cases h; rw [State.setVs_frame]; unfold State.bumpIndex; split <;> rfl
    · cases h
  case ldVxK x => simp only [exec, execLdVxK] at h; split at h <;> cases h <;> rfl
  case orReg x y => simp only [exec, execOrReg, logicResult] at h; cases h; split <;> rfl
  case andReg x y => simp only [exec, execAndReg, logicResult] at h; cases h; split <;> rfl
  case xorReg x y => simp only [exec, execXorReg, logicResult] at h; cases h; split <;> rfl
  case seImm => simp only [exec, execSeImm, skipIf] at h; cases h; split <;> rfl
  case sneImm => simp only [exec, execSneImm, skipIf] at h; cases h; split <;> rfl
  case seReg => simp only [exec, execSeReg, skipIf] at h; cases h; split <;> rfl
  case sneReg => simp only [exec, execSneReg, skipIf] at h; cases h; split <;> rfl
  case skp => simp only [exec, execSkp, skipIf] at h; cases h; split <;> rfl
  case sknp => simp only [exec, execSknp, skipIf] at h; cases h; split <;> rfl
  all_goals (cases h; rfl)

end Sys2Proof.Machine
end

