-- ==== Sys2Proof/Laws/PerInstr.lean ====
section
/-!
SUPPORT. The per-instruction family of this package: the opcode of every instruction fits a row of the opcode map, and
that row gives the instruction back (spec/30_encoding.md R72, R74).
-/

namespace Sys2Proof.Laws.EncodeFitsRow

/-- The opcode of `i` fits a row of the map whose fields are those of `i`. -/
def Statement (i : Instr) : Prop :=
  ∃ r ∈ opcodeRows, encode i &&& r.mask = r.value ∧ r.build (encode i) = i

/-- The row at a place of the map serves an instruction whose opcode fits it and whose fields it gives back. -/
theorem of_row {i : Instr} (k : Nat) (hk : k < opcodeRows.length) (hfit : encode i &&& opcodeRows[k].mask = opcodeRows[k].value)
    (hbuild : opcodeRows[k].build (encode i) = i) : Statement i :=
  ⟨opcodeRows[k], List.getElem_mem hk, hfit, hbuild⟩

theorem cls : Statement .cls := of_row 0 (by decide) (by decide) rfl

theorem ret : Statement .ret := of_row 1 (by decide) (by decide) rfl

theorem jp (nnn : Addr12) : Statement (.jp nnn) := by
  have := nnn.isLt
  have h : (encode (.jp nnn)).toNat = 4096 * 1 + nnn.toNat :=
    wordNNN_toNat (a := 1) (by decide) nnn
  refine of_row 2 (by decide) (and_top_nibble (by decide) (by omega) h) ?_
  exact congrArg Instr.jp (fieldNNN_eq (by omega))

theorem call (nnn : Addr12) : Statement (.call nnn) := by
  have := nnn.isLt
  have h : (encode (.call nnn)).toNat = 4096 * 2 + nnn.toNat :=
    wordNNN_toNat (a := 2) (by decide) nnn
  refine of_row 3 (by decide) (and_top_nibble (by decide) (by omega) h) ?_
  exact congrArg Instr.call (fieldNNN_eq (by omega))

theorem seImm (x : Reg) (nn : Byte) : Statement (.seImm x nn) := by
  have := x.isLt
  have := nn.isLt
  have h : (encode (.seImm x nn)).toNat = 4096 * 3 + 256 * x.val + nn.toNat :=
    wordXNN_toNat (a := 3) (by decide) x nn
  refine of_row 4 (by decide) (and_top_nibble (a := 3) (n := 256 * x.val + nn.toNat) (by decide) (by omega) (by omega)) ?_
  exact congrArg₂ Instr.seImm (fieldX_eq (by omega)) (fieldNN_eq (by omega))

theorem sneImm (x : Reg) (nn : Byte) : Statement (.sneImm x nn) := by
  have := x.isLt
  have := nn.isLt
  have h : (encode (.sneImm x nn)).toNat = 4096 * 4 + 256 * x.val + nn.toNat :=
    wordXNN_toNat (a := 4) (by decide) x nn
  refine of_row 5 (by decide) (and_top_nibble (a := 4) (n := 256 * x.val + nn.toNat) (by decide) (by omega) (by omega)) ?_
  exact congrArg₂ Instr.sneImm (fieldX_eq (by omega)) (fieldNN_eq (by omega))

theorem seReg (x : Reg) (y : Reg) : Statement (.seReg x y) := by
  have := x.isLt
  have := y.isLt
  have h : (encode (.seReg x y)).toNat = 4096 * 5 + 256 * x.val + 16 * y.val + 0 :=
    wordXY_toNat (a := 5) (d := 0) (by decide) (by decide) x y
  refine of_row 6 (by decide) (and_outer_nibbles (by decide) x.isLt y.isLt (by decide) h) ?_
  exact congrArg₂ Instr.seReg (fieldX_eq (by omega)) (fieldY_eq (by omega))

theorem ldImm (x : Reg) (nn : Byte) : Statement (.ldImm x nn) := by
  have := x.isLt
  have := nn.isLt
  have h : (encode (.ldImm x nn)).toNat = 4096 * 6 + 256 * x.val + nn.toNat :=
    wordXNN_toNat (a := 6) (by decide) x nn
  refine of_row 7 (by decide) (and_top_nibble (a := 6) (n := 256 * x.val + nn.toNat) (by decide) (by omega) (by omega)) ?_
  exact congrArg₂ Instr.ldImm (fieldX_eq (by omega)) (fieldNN_eq (by omega))

theorem addImm (x : Reg) (nn : Byte) : Statement (.addImm x nn) := by
  have := x.isLt
  have := nn.isLt
  have h : (encode (.addImm x nn)).toNat = 4096 * 7 + 256 * x.val + nn.toNat :=
    wordXNN_toNat (a := 7) (by decide) x nn
  refine of_row 8 (by decide) (and_top_nibble (a := 7) (n := 256 * x.val + nn.toNat) (by decide) (by omega) (by omega)) ?_
  exact congrArg₂ Instr.addImm (fieldX_eq (by omega)) (fieldNN_eq (by omega))

theorem ldReg (x : Reg) (y : Reg) : Statement (.ldReg x y) := by
  have := x.isLt
  have := y.isLt
  have h : (encode (.ldReg x y)).toNat = 4096 * 8 + 256 * x.val + 16 * y.val + 0 :=
    wordXY_toNat (a := 8) (d := 0) (by decide) (by decide) x y
  refine of_row 9 (by decide) (and_outer_nibbles (by decide) x.isLt y.isLt (by decide) h) ?_
  exact congrArg₂ Instr.ldReg (fieldX_eq (by omega)) (fieldY_eq (by omega))

theorem orReg (x : Reg) (y : Reg) : Statement (.orReg x y) := by
  have := x.isLt
  have := y.isLt
  have h : (encode (.orReg x y)).toNat = 4096 * 8 + 256 * x.val + 16 * y.val + 1 :=
    wordXY_toNat (a := 8) (d := 1) (by decide) (by decide) x y
  refine of_row 10 (by decide) (and_outer_nibbles (by decide) x.isLt y.isLt (by decide) h) ?_
  exact congrArg₂ Instr.orReg (fieldX_eq (by omega)) (fieldY_eq (by omega))

theorem andReg (x : Reg) (y : Reg) : Statement (.andReg x y) := by
  have := x.isLt
  have := y.isLt
  have h : (encode (.andReg x y)).toNat = 4096 * 8 + 256 * x.val + 16 * y.val + 2 :=
    wordXY_toNat (a := 8) (d := 2) (by decide) (by decide) x y
  refine of_row 11 (by decide) (and_outer_nibbles (by decide) x.isLt y.isLt (by decide) h) ?_
  exact congrArg₂ Instr.andReg (fieldX_eq (by omega)) (fieldY_eq (by omega))

theorem xorReg (x : Reg) (y : Reg) : Statement (.xorReg x y) := by
  have := x.isLt
  have := y.isLt
  have h : (encode (.xorReg x y)).toNat = 4096 * 8 + 256 * x.val + 16 * y.val + 3 :=
    wordXY_toNat (a := 8) (d := 3) (by decide) (by decide) x y
  refine of_row 12 (by decide) (and_outer_nibbles (by decide) x.isLt y.isLt (by decide) h) ?_
  exact congrArg₂ Instr.xorReg (fieldX_eq (by omega)) (fieldY_eq (by omega))

theorem addReg (x : Reg) (y : Reg) : Statement (.addReg x y) := by
  have := x.isLt
  have := y.isLt
  have h : (encode (.addReg x y)).toNat = 4096 * 8 + 256 * x.val + 16 * y.val + 4 :=
    wordXY_toNat (a := 8) (d := 4) (by decide) (by decide) x y
  refine of_row 13 (by decide) (and_outer_nibbles (by decide) x.isLt y.isLt (by decide) h) ?_
  exact congrArg₂ Instr.addReg (fieldX_eq (by omega)) (fieldY_eq (by omega))

theorem subReg (x : Reg) (y : Reg) : Statement (.subReg x y) := by
  have := x.isLt
  have := y.isLt
  have h : (encode (.subReg x y)).toNat = 4096 * 8 + 256 * x.val + 16 * y.val + 5 :=
    wordXY_toNat (a := 8) (d := 5) (by decide) (by decide) x y
  refine of_row 14 (by decide) (and_outer_nibbles (by decide) x.isLt y.isLt (by decide) h) ?_
  exact congrArg₂ Instr.subReg (fieldX_eq (by omega)) (fieldY_eq (by omega))

theorem shr (x : Reg) (y : Reg) : Statement (.shr x y) := by
  have := x.isLt
  have := y.isLt
  have h : (encode (.shr x y)).toNat = 4096 * 8 + 256 * x.val + 16 * y.val + 6 :=
    wordXY_toNat (a := 8) (d := 6) (by decide) (by decide) x y
  refine of_row 15 (by decide) (and_outer_nibbles (by decide) x.isLt y.isLt (by decide) h) ?_
  exact congrArg₂ Instr.shr (fieldX_eq (by omega)) (fieldY_eq (by omega))

theorem subn (x : Reg) (y : Reg) : Statement (.subn x y) := by
  have := x.isLt
  have := y.isLt
  have h : (encode (.subn x y)).toNat = 4096 * 8 + 256 * x.val + 16 * y.val + 7 :=
    wordXY_toNat (a := 8) (d := 7) (by decide) (by decide) x y
  refine of_row 16 (by decide) (and_outer_nibbles (by decide) x.isLt y.isLt (by decide) h) ?_
  exact congrArg₂ Instr.subn (fieldX_eq (by omega)) (fieldY_eq (by omega))

theorem shl (x : Reg) (y : Reg) : Statement (.shl x y) := by
  have := x.isLt
  have := y.isLt
  have h : (encode (.shl x y)).toNat = 4096 * 8 + 256 * x.val + 16 * y.val + 14 :=
    wordXY_toNat (a := 8) (d := 14) (by decide) (by decide) x y
  refine of_row 17 (by decide) (and_outer_nibbles (by decide) x.isLt y.isLt (by decide) h) ?_
  exact congrArg₂ Instr.shl (fieldX_eq (by omega)) (fieldY_eq (by omega))

theorem sneReg (x : Reg) (y : Reg) : Statement (.sneReg x y) := by
  have := x.isLt
  have := y.isLt
  have h : (encode (.sneReg x y)).toNat = 4096 * 9 + 256 * x.val + 16 * y.val + 0 :=
    wordXY_toNat (a := 9) (d := 0) (by decide) (by decide) x y
  refine of_row 18 (by decide) (and_outer_nibbles (by decide) x.isLt y.isLt (by decide) h) ?_
  exact congrArg₂ Instr.sneReg (fieldX_eq (by omega)) (fieldY_eq (by omega))

theorem ldI (nnn : Addr12) : Statement (.ldI nnn) := by
  have := nnn.isLt
  have h : (encode (.ldI nnn)).toNat = 4096 * 10 + nnn.toNat :=
    wordNNN_toNat (a := 10) (by decide) nnn
  refine of_row 19 (by decide) (and_top_nibble (by decide) (by omega) h) ?_
  exact congrArg Instr.ldI (fieldNNN_eq (by omega))

theorem jpV0 (nnn : Addr12) : Statement (.jpV0 nnn) := by
  have := nnn.isLt
  have h : (encode (.jpV0 nnn)).toNat = 4096 * 11 + nnn.toNat :=
    wordNNN_toNat (a := 11) (by decide) nnn
  refine of_row 20 (by decide) (and_top_nibble (by decide) (by omega) h) ?_
  exact congrArg Instr.jpV0 (fieldNNN_eq (by omega))

theorem rnd (x : Reg) (nn : Byte) : Statement (.rnd x nn) := by
  have := x.isLt
  have := nn.isLt
  have h : (encode (.rnd x nn)).toNat = 4096 * 12 + 256 * x.val + nn.toNat :=
    wordXNN_toNat (a := 12) (by decide) x nn
  refine of_row 21 (by decide) (and_top_nibble (a := 12) (n := 256 * x.val + nn.toNat) (by decide) (by omega) (by omega)) ?_
  exact congrArg₂ Instr.rnd (fieldX_eq (by omega)) (fieldNN_eq (by omega))

theorem drw (x : Reg) (y : Reg) (n : BitVec 4) : Statement (.drw x y n) := by
  have := x.isLt
  have := y.isLt
  have := n.isLt
  have h : (encode (.drw x y n)).toNat = 4096 * 13 + 256 * x.val + 16 * y.val + n.toNat := toNat_ofNat_of_lt (by omega)
  refine of_row 22 (by decide) (and_top_nibble (a := 13) (n := 256 * x.val + 16 * y.val + n.toNat) (by decide) (by omega) (by omega)) ?_
  show Instr.drw (fieldX _) (fieldY _) (fieldN _) = .drw x y n
  rw [fieldX_eq (x := x) (by omega), fieldY_eq (y := y) (by omega), fieldN_eq (n := n) (by omega)]

theorem skp (x : Reg) : Statement (.skp x) := by
  have := x.isLt
  have h : (encode (.skp x)).toNat = 4096 * 14 + 256 * x.val + 158 :=
    wordX_toNat (a := 14) (c := 158) (by decide) (by decide) x
  refine of_row 23 (by decide) (and_top_and_low (by decide) x.isLt (by decide) h) ?_
  exact congrArg Instr.skp (fieldX_eq (by omega))

theorem sknp (x : Reg) : Statement (.sknp x) := by
  have := x.isLt
  have h : (encode (.sknp x)).toNat = 4096 * 14 + 256 * x.val + 161 :=
    wordX_toNat (a := 14) (c := 161) (by decide) (by decide) x
  refine of_row 24 (by decide) (and_top_and_low (by decide) x.isLt (by decide) h) ?_
  exact congrArg Instr.sknp (fieldX_eq (by omega))

theorem ldVxDt (x : Reg) : Statement (.ldVxDt x) := by
  have := x.isLt
  have h : (encode (.ldVxDt x)).toNat = 4096 * 15 + 256 * x.val + 7 :=
    wordX_toNat (a := 15) (c := 7) (by decide) (by decide) x
  refine of_row 25 (by decide) (and_top_and_low (by decide) x.isLt (by decide) h) ?_
  exact congrArg Instr.ldVxDt (fieldX_eq (by omega))

theorem ldVxK (x : Reg) : Statement (.ldVxK x) := by
  have := x.isLt
  have h : (encode (.ldVxK x)).toNat = 4096 * 15 + 256 * x.val + 10 :=
    wordX_toNat (a := 15) (c := 10) (by decide) (by decide) x
  refine of_row 26 (by decide) (and_top_and_low (by decide) x.isLt (by decide) h) ?_
  exact congrArg Instr.ldVxK (fieldX_eq (by omega))

theorem ldDtVx (x : Reg) : Statement (.ldDtVx x) := by
  have := x.isLt
  have h : (encode (.ldDtVx x)).toNat = 4096 * 15 + 256 * x.val + 21 :=
    wordX_toNat (a := 15) (c := 21) (by decide) (by decide) x
  refine of_row 27 (by decide) (and_top_and_low (by decide) x.isLt (by decide) h) ?_
  exact congrArg Instr.ldDtVx (fieldX_eq (by omega))

theorem ldStVx (x : Reg) : Statement (.ldStVx x) := by
  have := x.isLt
  have h : (encode (.ldStVx x)).toNat = 4096 * 15 + 256 * x.val + 24 :=
    wordX_toNat (a := 15) (c := 24) (by decide) (by decide) x
  refine of_row 28 (by decide) (and_top_and_low (by decide) x.isLt (by decide) h) ?_
  exact congrArg Instr.ldStVx (fieldX_eq (by omega))

theorem addIVx (x : Reg) : Statement (.addIVx x) := by
  have := x.isLt
  have h : (encode (.addIVx x)).toNat = 4096 * 15 + 256 * x.val + 30 :=
    wordX_toNat (a := 15) (c := 30) (by decide) (by decide) x
  refine of_row 29 (by decide) (and_top_and_low (by decide) x.isLt (by decide) h) ?_
  exact congrArg Instr.addIVx (fieldX_eq (by omega))

theorem ldFVx (x : Reg) : Statement (.ldFVx x) := by
  have := x.isLt
  have h : (encode (.ldFVx x)).toNat = 4096 * 15 + 256 * x.val + 41 :=
    wordX_toNat (a := 15) (c := 41) (by decide) (by decide) x
  refine of_row 30 (by decide) (and_top_and_low (by decide) x.isLt (by decide) h) ?_
  exact congrArg Instr.ldFVx (fieldX_eq (by omega))

theorem ldBVx (x : Reg) : Statement (.ldBVx x) := by
  have := x.isLt
  have h : (encode (.ldBVx x)).toNat = 4096 * 15 + 256 * x.val + 51 :=
    wordX_toNat (a := 15) (c := 51) (by decide) (by decide) x
  refine of_row 31 (by decide) (and_top_and_low (by decide) x.isLt (by decide) h) ?_
  exact congrArg Instr.ldBVx (fieldX_eq (by omega))

theorem storeRegs (x : Reg) : Statement (.storeRegs x) := by
  have := x.isLt
  have h : (encode (.storeRegs x)).toNat = 4096 * 15 + 256 * x.val + 85 :=
    wordX_toNat (a := 15) (c := 85) (by decide) (by decide) x
  refine of_row 32 (by decide) (and_top_and_low (by decide) x.isLt (by decide) h) ?_
  exact congrArg Instr.storeRegs (fieldX_eq (by omega))

theorem loadRegs (x : Reg) : Statement (.loadRegs x) := by
  have := x.isLt
  have h : (encode (.loadRegs x)).toNat = 4096 * 15 + 256 * x.val + 101 :=
    wordX_toNat (a := 15) (c := 101) (by decide) (by decide) x
  refine of_row 33 (by decide) (and_top_and_low (by decide) x.isLt (by decide) h) ?_
  exact congrArg Instr.loadRegs (fieldX_eq (by omega))

end Sys2Proof.Laws.EncodeFitsRow
end

