-- ==== Sys2Proof/Tests/Slice0.lean ====
section
/-!
SUPPORT. Tests of this package. Expected results come from spec/: the opcode map (spec/30_encoding.md R74, R75) and the
vectors of spec/95_test_vectors.md, named by their ids (VE, VC, VA, VI, VD, VT, VX, W). The last part shows, for each
statement with hypotheses, concrete values that meet them all.
-/

namespace Sys2Proof.Tests

open Sys2Proof Sys2Proof.Machine

/-! ## Well-formedness: an ill-formed term for each check -/

theorem test_wf_default_config : Config.default.wellFormed = true := by decide

theorem test_wf_no_cycles_refused :
    ({ Config.default with cyclesPerTick := 0 } : Config).cyclesOk = false ∧
    ({ Config.default with cyclesPerTick := 0 } : Config).wellFormed = false := by decide

theorem test_wf_font_past_reserved_refused :
    ({ Config.default with fontBase := 433 } : Config).fontOk = false ∧
    ({ Config.default with fontBase := 433 } : Config).wellFormed = false ∧
    ({ Config.default with fontBase := 432 } : Config).wellFormed = true := by decide

theorem test_wf_large_rom_refused :
    romWellFormed (List.replicate 3585 0) = false ∧ romWellFormed (List.replicate 3584 0) = true := by
  unfold romWellFormed
  rw [List.length_replicate, List.length_replicate]
  decide

/-- No field value of an instruction is excluded (R73). -/
theorem test_wf_instr : (Instr.drw 15 15 15).wellFormed = true ∧ (Instr.seReg 3 3).wellFormed = true := by decide

/-! ## Decoding: each constructor by a word written out from its row of R74 -/

theorem test_decode_cls : decode 0b0000000011100000 = .ok .cls := by rfl
theorem test_decode_ret : decode 0b0000000011101110 = .ok .ret := by rfl
theorem test_decode_jp : decode 0b0001001101000101 = .ok (.jp 0x345) := by rfl
theorem test_decode_call : decode 0b0010010000000001 = .ok (.call 0x401) := by rfl
theorem test_decode_seImm : decode 0b0011001101000010 = .ok (.seImm 3 0x42) := by rfl
theorem test_decode_sneImm : decode 0b0100001101000010 = .ok (.sneImm 3 0x42) := by rfl
theorem test_decode_seReg : decode 0b0101000100100000 = .ok (.seReg 1 2) := by rfl
theorem test_decode_ldImm : decode 0b0110111101111110 = .ok (.ldImm 15 0x7E) := by rfl
theorem test_decode_addImm : decode 0b0111000000000001 = .ok (.addImm 0 0x01) := by rfl
theorem test_decode_ldReg : decode 0b1000000101110000 = .ok (.ldReg 1 7) := by rfl
theorem test_decode_orReg : decode 0b1000000100100001 = .ok (.orReg 1 2) := by rfl
theorem test_decode_andReg : decode 0b1000000100100010 = .ok (.andReg 1 2) := by rfl
theorem test_decode_xorReg : decode 0b1000000100100011 = .ok (.xorReg 1 2) := by rfl
theorem test_decode_addReg : decode 0b1000000100100100 = .ok (.addReg 1 2) := by rfl
theorem test_decode_subReg : decode 0b1000000100100101 = .ok (.subReg 1 2) := by rfl
theorem test_decode_shr : decode 0b1000000100100110 = .ok (.shr 1 2) := by rfl
theorem test_decode_subn : decode 0b1000000100100111 = .ok (.subn 1 2) := by rfl
theorem test_decode_shl : decode 0b1000000100101110 = .ok (.shl 1 2) := by rfl
theorem test_decode_sneReg : decode 0b1001000100100000 = .ok (.sneReg 1 2) := by rfl
theorem test_decode_ldI : decode 0b1010001011101010 = .ok (.ldI 0x2EA) := by rfl
theorem test_decode_jpV0 : decode 0b1011001000100000 = .ok (.jpV0 0x220) := by rfl
theorem test_decode_rnd : decode 0b1100001111110000 = .ok (.rnd 3 0xF0) := by rfl
theorem test_decode_drw : decode 0b1101000000010101 = .ok (.drw 0 1 5) := by rfl
theorem test_decode_skp : decode 0b1110000110011110 = .ok (.skp 1) := by rfl
theorem test_decode_sknp : decode 0b1110111110100001 = .ok (.sknp 15) := by rfl
theorem test_decode_ldVxDt : decode 0b1111010000000111 = .ok (.ldVxDt 4) := by rfl
theorem test_decode_ldVxK : decode 0b1111001100001010 = .ok (.ldVxK 3) := by rfl
theorem test_decode_ldDtVx : decode 0b1111000100010101 = .ok (.ldDtVx 1) := by rfl
theorem test_decode_ldStVx : decode 0b1111000000011000 = .ok (.ldStVx 0) := by rfl
theorem test_decode_addIVx : decode 0b1111000100011110 = .ok (.addIVx 1) := by rfl
theorem test_decode_ldFVx : decode 0b1111000100101001 = .ok (.ldFVx 1) := by rfl
theorem test_decode_ldBVx : decode 0b1111001000110011 = .ok (.ldBVx 2) := by rfl
theorem test_decode_storeRegs : decode 0b1111111101010101 = .ok (.storeRegs 15) := by rfl
theorem test_decode_loadRegs : decode 0b1111000001100101 = .ok (.loadRegs 0) := by rfl

/-- Big-endian (VE1), and a missing second byte is refused by name. -/
theorem test_decode_bytes : decodeBytes [0x12, 0x34] = .ok (.jp 0x234) ∧ decodeBytes [0x12] = .error .truncated := ⟨rfl, rfl⟩

/-- VE5..VE11, W4: words of R75's table. -/
theorem test_decode_rejects :
    decode 0x0123 = .error (.unknownOpcode 0x0123) ∧ decode 0x5121 = .error (.unknownOpcode 0x5121) ∧
    decode 0x8128 = .error (.unknownOpcode 0x8128) ∧ decode 0xE09F = .error (.unknownOpcode 0xE09F) ∧
    decode 0xF0FF = .error (.unknownOpcode 0xF0FF) ∧ decode 0x9121 = .error (.unknownOpcode 0x9121) ∧
    decode 0xFFFF = .error (.unknownOpcode 0xFFFF) := ⟨rfl, rfl, rfl, rfl, rfl, rfl, rfl⟩

/-- VE10: the Super-CHIP words. -/
theorem test_decode_superchip_rejects :
    decode 0x00FF = .error (.unknownOpcode 0x00FF) ∧ decode 0x00FE = .error (.unknownOpcode 0x00FE) ∧
    decode 0x00C1 = .error (.unknownOpcode 0x00C1) ∧ decode 0xF030 = .error (.unknownOpcode 0xF030) ∧
    decode 0xF075 = .error (.unknownOpcode 0xF075) := ⟨rfl, rfl, rfl, rfl, rfl⟩

theorem test_decode_table_word :
    decodeTableWord 16 0x00E0 = some .cls ∧ decodeTableWord 16 0xF165 = some (.loadRegs 1) ∧
    decodeTableWord 16 0xFFFF = none := ⟨rfl, rfl, rfl⟩

/-! ## One step of each instruction -/

/-- One step of `s` with the opcode `w` at PC. -/
def run1 (w : Nat) (s : State) : Host.Outcome State Fault Refusal := step (s.withFetchWord 16 w)

/-- A property of the next state, false where there is none. -/
def nextHas (p : State → Bool) : Host.Outcome State Fault Refusal → Bool
  | .next t => p t
  | _ => false

/-- Whether an outcome is a given fault. -/
def faultIs (f : Fault) : Host.Outcome State Fault Refusal → Bool
  | .fault g => decide (g = f)
  | _ => false

/-- The reset state with one register set. -/
def v1 (x : Reg) (b : Byte) : State := State.reset.setV x b

/-- The reset state with two registers set. -/
def v2 (x : Reg) (b : Byte) (y : Reg) (c : Byte) : State := (State.reset.setV x b).setV y c

/-- The reset state with another configuration. -/
def withCfg (c : Config) (s : State) : State := { s with cfg := c }

/-- A state with some depth and one entry of the stack set. -/
def withEntry (s : State) (sp : Fin 17) (k : Fin 16) (w : Word) : State := s.withStack sp (s.stack.set k.val w)

/-- A state with bytes stored in memory. -/
def withBytes (s : State) (a : Nat) (bs : List Byte) : State := (s.writeBytes a bs).getD s

/-- A state with the pressed keys given. -/
def withPressed (s : State) (ks : List (Fin 16)) : State :=
  s.withKeys (Vector.ofFn fun k => decide (k ∈ ks))

/-- The display whose row `y` is `row` and whose other rows are off: bit x of a row is Pix(x, y). -/
def rowAt (y : Fin 32) (row : BitVec 64) : Vector (BitVec 64) 32 := (Vector.replicate 32 0).set y.val row

/-! ### Fetch -/

/-- VE2, at the fetch. -/
theorem test_fetch_past_memory : faultIs (.outOfBoundsAddress 0x0FFF) (step (State.reset.withPc 0x0FFF)) = true := by
  decide

/-- VE3. -/
theorem test_skip_at_top_of_memory :
    nextHas (fun t => t.pc == 0x1002) (run1 0x3000 (State.reset.withPc 0x0FFE)) = true ∧
    faultIs (.outOfBoundsAddress 0x1002) (step (State.reset.withPc 0x1002)) = true := by decide

/-- W4: an unknown opcode. -/
theorem test_unknown_opcode : faultIs (.unknownOpcode 0x0200) (run1 0xFFFF State.reset) = true := by decide

/-! ### Control flow -/

/-- VC6: the popped entry stays. -/
theorem test_ret_pops :
    nextHas (fun t => t.pc == 0x0345 && t.sp == 0 && t.stack[0] == 0x0345)
      (run1 0x00EE (withEntry State.reset 1 0 0x0345)) = true := by decide

/-- VC7. -/
theorem test_ret_underflow : faultIs (.stackUnderflow 0x0200) (run1 0x00EE State.reset) = true := by decide

/-- VC1. -/
theorem test_jp : nextHas (fun t => t.pc == 0x0345) (run1 0x1345 State.reset) = true := by decide

/-- VC4: the 16th entry is legal. -/
theorem test_call_last_entry :
    nextHas (fun t => t.pc == 0x0400 && t.sp == 16 && t.stack[15] == 0x0202)
      (run1 0x2400 (State.reset.withStack 15 State.reset.stack)) = true := by decide

/-- VC5. -/
theorem test_call_overflow :
    faultIs (.stackOverflow 0x0200) (run1 0x2400 (State.reset.withStack 16 State.reset.stack)) = true := by decide

/-- VC8, VC9. -/
theorem test_seImm :
    nextHas (fun t => t.pc == 0x0204) (run1 0x3342 (v1 3 0x42)) = true ∧
    nextHas (fun t => t.pc == 0x0202) (run1 0x3342 (v1 3 0x41)) = true := by decide

/-- VC10, VC11. -/
theorem test_sneImm :
    nextHas (fun t => t.pc == 0x0202) (run1 0x4342 (v1 3 0x42)) = true ∧
    nextHas (fun t => t.pc == 0x0204) (run1 0x4342 (v1 3 0x41)) = true := by decide

/-- VC12. -/
theorem test_seReg :
    nextHas (fun t => t.pc == 0x0204) (run1 0x5120 (v2 1 7 2 7)) = true ∧
    nextHas (fun t => t.pc == 0x0202) (run1 0x5120 (v2 1 7 2 8)) = true := by decide

/-- VC13, VC14. -/
theorem test_sneReg :
    nextHas (fun t => t.pc == 0x0202) (run1 0x9120 (v2 1 7 2 7)) = true ∧
    nextHas (fun t => t.pc == 0x0204) (run1 0x9120 (v2 1 7 2 8)) = true := by decide

/-- VC16, VC17, VC18. -/
theorem test_jpV0 :
    nextHas (fun t => t.pc == 0x0310) (run1 0xB300 (v1 0 0x10)) = true ∧
    faultIs (.outOfBoundsAddress 0x0200) (run1 0xBFFF (v1 0 0xFF)) = true ∧
    nextHas (fun t => t.pc == 0x0FFF) (run1 0xBFFF State.reset) = true := by decide

/-- VC19: under `Q_JUMP_VX`. -/
theorem test_jpV0_vx :
    nextHas (fun t => t.pc == 0x0225)
      (run1 0xB220 (withCfg { Config.default with jumpVx := true } (v2 0 9 2 5))) = true := by decide

/-! ### Arithmetic -/

/-- VA1. -/
theorem test_ldImm : nextHas (fun t => t.getV 15 == 0x7E && t.pc == 0x0202) (run1 0x6F7E State.reset) = true := by
  decide

/-- VA2: no flag. -/
theorem test_addImm_wraps :
    nextHas (fun t => t.getV 0 == 0 && t.getV 15 == 0x55) (run1 0x7001 (v2 0 0xFF 15 0x55)) = true := by decide

/-- VA24. -/
theorem test_ldReg : nextHas (fun t => t.getV 1 == 0x3C) (run1 0x8170 (v1 7 0x3C)) = true := by decide

/-- R135 with the default, and VA5. -/
theorem test_orReg :
    nextHas (fun t => t.getV 1 == 0x0D && t.getV 15 == 7) (run1 0x8121 ((v2 1 0x0C 2 5).setV 15 7)) = true ∧
    nextHas (fun t => t.getV 1 == 0x0D && t.getV 15 == 0)
      (run1 0x8121 (withCfg { Config.default with logicVfReset := true } ((v2 1 0x0C 2 5).setV 15 7))) = true := by decide

/-- VA6: the reset overwrites the result. -/
theorem test_orReg_vf :
    nextHas (fun t => t.getV 15 == 0)
      (run1 0x8F21 (withCfg { Config.default with logicVfReset := true } (v2 15 0x0C 2 5))) = true := by decide

/-- R136: 0x0C AND 0x05 is 0x04. -/
theorem test_andReg : nextHas (fun t => t.getV 1 == 4) (run1 0x8122 (v2 1 0x0C 2 5)) = true := by decide

/-- VA4. -/
theorem test_xorReg : nextHas (fun t => t.getV 1 == 0) (run1 0x8113 (v1 1 0x5A)) = true := by decide

/-- VA7, VA10. -/
theorem test_addReg :
    nextHas (fun t => t.getV 1 == 0 && t.getV 15 == 1) (run1 0x8124 (v2 1 0xFF 2 1)) = true ∧
    nextHas (fun t => t.getV 1 == 8 && t.getV 15 == 0) (run1 0x81F4 (v2 1 5 15 3)) = true := by decide

/-- VA9: the flag overwrites the result. -/
theorem test_addReg_vf : nextHas (fun t => t.getV 15 == 1) (run1 0x8F14 (v2 15 0xF0 1 0x20)) = true := by decide

/-- VA11, VA12. -/
theorem test_subReg :
    nextHas (fun t => t.getV 1 == 0 && t.getV 15 == 1) (run1 0x8125 (v2 1 0x33 2 0x33)) = true ∧
    nextHas (fun t => t.getV 1 == 0xFF && t.getV 15 == 0) (run1 0x8125 (v1 2 1)) = true := by decide

/-- VA13. -/
theorem test_subReg_vf : nextHas (fun t => t.getV 15 == 0) (run1 0x8F15 (v2 15 0x10 1 0x20)) = true := by decide

/-- VA14, VA15. -/
theorem test_subn :
    nextHas (fun t => t.getV 1 == 0xFF && t.getV 15 == 0) (run1 0x8127 (v1 1 1)) = true ∧
    nextHas (fun t => t.getV 1 == 0x20 && t.getV 15 == 1) (run1 0x8127 (v2 1 0x10 2 0x30)) = true := by decide

/-- VA16, VA17. -/
theorem test_shr :
    nextHas (fun t => t.getV 1 == 2 && t.getV 15 == 1) (run1 0x8126 (v1 2 5)) = true ∧
    nextHas (fun t => t.getV 1 == 2 && t.getV 15 == 0)
      (run1 0x8126 (withCfg { Config.default with shiftSource := .vx } (v2 1 4 2 5))) = true := by decide

/-- VA18, VA19, VA20. -/
theorem test_shl :
    nextHas (fun t => t.getV 1 == 0 && t.getV 15 == 1) (run1 0x812E (v1 2 0x80)) = true ∧
    nextHas (fun t => t.getV 1 == 0xFE && t.getV 15 == 0) (run1 0x812E (v1 2 0x7F)) = true ∧
    nextHas (fun t => t.getV 1 == 0x80 && t.getV 15 == 1)
      (run1 0x812E (withCfg { Config.default with shiftSource := .vx } (v2 1 0xC0 2 1))) = true := by decide

/-- VA21. -/
theorem test_shl_vf : nextHas (fun t => t.getV 15 == 1) (run1 0x8FFE (v1 15 0x81)) = true := by decide

/-- VA23: a mask of zero gives zero on every draw. -/
theorem test_rnd_zero_mask : execRnd 3 0 (v1 3 9) = .next (((v1 3 9).setV 3 0).withDraws 1) := by
  have h : randomByte (v1 3 9).draws &&& 0 = 0 := BitVec.and_zero
  rw [execRnd, h]
  rfl

/-- VA22: a mask of ones gives the draw. -/
theorem test_rnd_full_mask : execRnd 3 0xFF State.reset = .next ((State.reset.setV 3 (randomByte 0)).withDraws 1) := by
  have h : randomByte State.reset.draws &&& 0xFF = randomByte 0 := BitVec.and_allOnes
  rw [execRnd, h]
  rfl

/-! ### Index register and memory -/

/-- VI1. -/
theorem test_ldI : nextHas (fun t => t.i == 0x02EA) (run1 0xA2EA State.reset) = true := by decide

/-- VI2, VI3. -/
theorem test_addIVx :
    nextHas (fun t => t.i == 0x1000 && t.getV 15 == 0) (run1 0xF11E ((v1 1 1).withI 0x0FFF)) = true ∧
    nextHas (fun t => t.i == 1) (run1 0xF11E ((v1 1 2).withI 0xFFFF)) = true := by decide

/-- VI4, VI5. -/
theorem test_ldFVx :
    nextHas (fun t => t.i == 0x0082) (run1 0xF129 (v1 1 0x1A)) = true ∧
    nextHas (fun t => t.i == 0x009B) (run1 0xF129 (v1 1 0x0F)) = true := by decide

/-- VI6. -/
theorem test_ldBVx :
    nextHas (fun t => t.memRead 0xFFD == some 2 && t.memRead 0xFFE == some 5 && t.memRead 0xFFF == some 5 &&
      t.i == 0x0FFD) (run1 0xF233 ((v1 2 0xFF).withI 0x0FFD)) = true := by decide

/-- VI8. -/
theorem test_ldBVx_fault :
    faultIs (.outOfBoundsAddress 0x0200) (run1 0xF233 ((v1 2 0xFF).withI 0x0FFE)) = true := by decide

/-- VI9, VI10. -/
theorem test_storeRegs :
    nextHas (fun t => t.memRead 0xFF0 == some 0 && t.memRead 0xFFF == some 0xAB && t.i == 0x1000)
      (run1 0xFF55 ((v1 15 0xAB).withI 0x0FF0)) = true ∧
    faultIs (.outOfBoundsAddress 0x0200) (run1 0xFF55 (State.reset.withI 0x0FF1)) = true := by decide

/-- VI11: under `Q_INDEX_INC` = false. -/
theorem test_storeRegs_keeps_index :
    nextHas (fun t => t.memRead 0x400 == some 1 && t.memRead 0x401 == some 2 && t.memRead 0x402 == some 3 &&
      t.memRead 0x403 == some 0 && t.i == 0x0400)
      (run1 0xF255 (withCfg { Config.default with indexInc := false } (((v2 0 1 1 2).setV 2 3).withI 0x0400))) = true := by
  decide

/-- VI12, VI13. -/
theorem test_loadRegs :
    nextHas (fun t => t.getV 0 == 0x42 && t.i == 0x1000)
      (run1 0xF065 (withBytes (State.reset.withI 0x0FFF) 0xFFF [0x42])) = true ∧
    faultIs (.outOfBoundsAddress 0x0200) (run1 0xF065 (State.reset.withI 0x1000)) = true := by decide

/-- VI14: the font can be read. -/
theorem test_loadRegs_font :
    nextHas (fun t => t.getV 0 == 0xF0 && t.getV 5 == 0x20 && t.getV 9 == 0x70 && t.getV 13 == 0x80 &&
      t.getV 15 == 0xF0 && t.i == 0x0060) (run1 0xFF65 (State.reset.withI 0x0050)) = true := by decide

/-! ### Display -/

/-- VD1. -/
theorem test_cls :
    nextHas (fun t => decide (t.display = Vector.replicate 32 0) && t.getV 15 == 9)
      (run1 0x00E0 ((v1 15 9).withDisplay (rowAt 3 0xFF))) = true := by decide

/-- W2: the first draw. -/
theorem test_drw_first :
    nextHas (fun t => decide (t.display = rowAt 0 0xF) && t.getV 15 == 0)
      (run1 0xD011 (withBytes (State.reset.withI 0x0300) 0x300 [0xF0])) = true := by decide

/-- VD4 and VD5: the same draw over Pix(0, 0), wrapped and clipped. Bit 63 is Pix(63, 0). -/
theorem test_drw_edge :
    nextHas (fun t => decide (t.display = rowAt 0 0xC00000000000003E) && t.getV 15 == 1)
      (run1 0xD011 ((withBytes ((v1 0 62).withI 0x0300) 0x300 [0xFF]).withDisplay (rowAt 0 1))) = true ∧
    nextHas (fun t => decide (t.display = rowAt 0 0xC000000000000001) && t.getV 15 == 0)
      (run1 0xD011 (withCfg { Config.default with spriteEdge := .clip }
        ((withBytes ((v1 0 62).withI 0x0300) 0x300 [0xFF]).withDisplay (rowAt 0 1)))) = true := by decide

/-- VD7 and VD8: the start wraps, and VF is read as a coordinate before it is written. -/
theorem test_drw_start :
    nextHas (fun t => decide (t.display = rowAt 8 0x40))
      (run1 0xD011 (withBytes ((v2 0 70 1 40).withI 0x0300) 0x300 [0x80])) = true ∧
    nextHas (fun t => decide (t.display = rowAt 2 0x20) && t.getV 15 == 0)
      (run1 0xDF01 (withBytes ((v2 15 5 0 2).withI 0x0300) 0x300 [0x80])) = true := by decide

/-- VD9, VD10, VD11: no rows, rows past memory, rows up to its end. -/
theorem test_drw_range :
    nextHas (fun t => t.getV 15 == 0) (run1 0xD010 ((v1 15 1).withI 0xFFFF)) = true ∧
    faultIs (.outOfBoundsAddress 0x0200) (run1 0xD015 ((v1 15 1).withI 0x0FFC)) = true ∧
    nextHas (fun t => t.pc == 0x0202) (run1 0xD015 (State.reset.withI 0x0FFB)) = true := by decide

/-! ### Timers and keys -/

/-- VT1: the read is in a tick, after its decrement (R238). -/
theorem test_ldVxDt :
    nextHas (fun t => t.getV 4 == 0x3C) (run1 0xF407 ((State.reset.withDt 0x3C).withCyclesLeft 1)) = true ∧
    nextHas (fun t => t.getV 4 == 0x3B) (run1 0xF407 (State.reset.withDt 0x3C)) = true := by decide

theorem test_ldDtVx : nextHas (fun t => t.dt == 3 && t.st == 0) (run1 0xF115 (v1 1 3)) = true := by decide

theorem test_ldStVx :
    nextHas (fun t => t.st == 2 && t.dt == 0 && shouldPlaySound t) (run1 0xF018 (v1 0 2)) = true := by decide

/-- VT6: the low nibble names the key. -/
theorem test_skp :
    nextHas (fun t => t.pc == 0x0204) (run1 0xE19E (withPressed (v1 1 0x15) [5])) = true ∧
    nextHas (fun t => t.pc == 0x0202) (run1 0xE19E (withPressed (v1 1 0x15) [1])) = true := by decide

/-- VT7, VT8. -/
theorem test_sknp :
    nextHas (fun t => t.pc == 0x0204) (run1 0xEFA1 (v1 15 3)) = true ∧
    nextHas (fun t => t.pc == 0x0202) (run1 0xE1A1 (withPressed (v1 1 7) [7])) = true := by decide

/-- VT9. -/
theorem test_ldVxK_waits :
    nextHas (fun t => t.pc == 0x0200 && t.kw && t.getV 3 == 9) (run1 0xF30A (v1 3 9)) = true := by decide

/-- VT10: the lowest key. -/
theorem test_ldVxK_takes :
    nextHas (fun t => t.pc == 0x0202 && !t.kw && t.getV 3 == 3) (run1 0xF30A (withPressed State.reset [3, 0xC])) = true := by
  decide

/-! ### The tick and the host -/

/-- VT5: the timers are decremented before the cycle that faults, and PC stays at it. -/
theorem test_tick_decrements_then_faults :
    hostTick (((State.reset.withFetchWord 16 0xFFFF).withDt 5).withSt 1) =
      (((State.reset.withFetchWord 16 0xFFFF).withDt 4).withSt 0, .fault (.unknownOpcode 0x0200)) := by rfl

/-- A step that begins a tick sets its budget and uses one cycle of it. -/
theorem test_step_counts_cycles :
    nextHas (fun t => t.cyclesLeft == 9 && t.dt == 4) (run1 0x00E0 (State.reset.withDt 5)) = true ∧
    nextHas (fun t => t.cyclesLeft == 2 && t.dt == 5) (run1 0x00E0 ((State.reset.withDt 5).withCyclesLeft 3)) = true := by
  decide

/-- VT12. -/
theorem test_pixel_at :
    pixelAt (State.reset.withDisplay (rowAt 0 1)) 0 0 = true ∧ pixelAt State.reset 64 0 = false ∧
    pixelAt State.reset 0 32 = false ∧ displayWidth State.reset = 64 ∧ displayHeight State.reset = 32 := by decide

/-- W8: the loaded bytes, and `reset` after a store (R273). -/
theorem test_load_and_reset :
    (hostLoad State.reset [0x60, 0x42]).1.memRead 0x201 = some 0x42 ∧
    (hostReset (withBytes (hostLoad State.reset [0x60, 0x42]).1 0x200 [9])).memRead 0x200 = some 0x60 := by decide

/-- VX3. -/
theorem test_fault_ordinals :
    [Fault.unknownOpcode 0, .stackOverflow 0, .stackUnderflow 0, .outOfBoundsAddress 0].map faultOrdinal = [0, 1, 2, 3] := by
  decide

/-! ## Witnesses: for each statement with hypotheses, values that meet them together -/

/-- The reset state with one opcode at PC. -/
def atWord (w : Nat) : State := State.reset.withFetchWord 16 w

/-- A loaded Machine, waiting for a key in its first instruction. -/
def waiting : State := ((State.reset.loaded [0xF0, 0x0A]).withKw true)

/-- The configuration at the bounds of R6. -/
def edgeConfig : Config := { Config.default with cyclesPerTick := 1, fontBase := 432 }

theorem test_witness_EncodeAfterDecode :
    decode 0xDFFF = .ok (.drw 15 15 15) ∧ decode 0x00E0 = .ok .cls := ⟨rfl, rfl⟩

theorem test_witness_OpcodeMapIsUnambiguous :
    (0xF065 : Word) &&& (opcodeRows[33]).mask = (opcodeRows[33]).value ∧
    (0x00E0 : Word) &&& (opcodeRows[0]).mask = (opcodeRows[0]).value := by decide

/-- One word for each line of R75's table, and a word beside each that is none. -/
theorem test_witness_UnknownOpcodesAreThoseListed :
    (∀ op ∈ [(0x0000 : Word), 0x0FFF, 0x5001, 0x8008, 0x800D, 0x800F, 0x9001, 0xE09F, 0xF0FF, 0xFFFF], UnknownWord op) ∧
    (∀ op ∈ [(0x00E0 : Word), 0x00EE, 0x1000, 0x5000, 0x8007, 0x800E, 0x9000, 0xE09E, 0xF007, 0xFF65], ¬UnknownWord op) := by
  simp [UnknownWord, nibble]

theorem test_witness_UnknownOpcodesAreThoseListed_fetch : (atWord 0xFFFF).fetch = some 0xFFFF := by decide

theorem test_witness_MachineCodeAndSuperChipAreUnknown :
    (atWord 0x0000).fetch = some 0x0000 ∧ (atWord 0x0FFF).fetch = some 0x0FFF ∧ (0x0FFF : Word).toNat < 0x1000 ∧
    (atWord 0x00C1).fetch = some 0x00C1 ∧ (0x00C1 : Word).toNat / 16 = 0x00C ∧
    (atWord 0x00FF).fetch = some 0x00FF ∧ (atWord 0xFF85).fetch = some (wordX 0xF085 15) := by decide

theorem test_witness_TickStopsAtFFFF :
    (atWord 0xFFFF).fetch = some 0xFFFF ∧ 1 ≤ (atWord 0xFFFF).cfg.cyclesPerTick := by decide

/-- Both clauses: inside a tick and at the start of one, the instruction ending at the last byte of memory. -/
theorem test_witness_StepRunsTheDecodedInstruction :
    (atWord 0x6F7E).memRead 0x200 = some 0x6F ∧ (atWord 0x6F7E).memRead 0x201 = some 0x7E ∧
    (withBytes (State.reset.withPc 0xFFE) 0xFFE [0x6F, 0x7E]).memRead 0xFFE = some 0x6F ∧
    (withBytes (State.reset.withPc 0xFFE) 0xFFE [0x6F, 0x7E]).memRead 0xFFF = some 0x7E ∧
    ((atWord 0x6F7E).withCyclesLeft 1).cyclesLeft ≠ 0 ∧ (atWord 0x6F7E).cyclesLeft = 0 := by decide

theorem test_witness_StepRunsTheDecodedInstruction_decode : decodeBytes [0x6F, 0x7E] = .ok (.ldImm 15 0x7E) := rfl

theorem test_witness_CycleFetchesAdvancesDispatches :
    memSize ≤ (State.reset.withPc 0xFFF).pc.toNat + 1 ∧ (State.reset.withPc 0xFFE).memRead 0xFFE = some 0 ∧
    (State.reset.withPc 0xFFE).memRead 0xFFF = some 0 := by decide

theorem test_witness_CycleFetchesAdvancesDispatches_decode :
    decode (BitVec.ofNat 16 (256 * (0x00 : Byte).toNat + (0xE0 : Byte).toNat)) = .ok .cls ∧
    decode (BitVec.ofNat 16 (256 * (0x00 : Byte).toNat + (0x00 : Byte).toNat)) = .error (.unknownOpcode 0) := ⟨rfl, rfl⟩

theorem test_witness_FaultRecordNamesTheInstruction :
    cycle (atWord 0x00EE) = .fault (.stackUnderflow 0x200) ∧ step (atWord 0x00EE) = .fault (.stackUnderflow 0x200) ∧
    (hostTick (atWord 0x00EE)).2 = .fault (.stackUnderflow 0x200) := ⟨rfl, rfl, rfl⟩

/-- A fault in the second cycle of a tick. -/
theorem test_witness_FaultsArePrecise :
    (hostTick (withBytes State.reset 0x200 [0x60, 0x01, 0x00, 0xEE])).2 = .fault (.stackUnderflow 0x202) := rfl

theorem test_witness_NextTickRetriesTheFault : (hostTick (atWord 0x00EE)).2 = .fault (.stackUnderflow 0x200) := rfl

theorem test_witness_TickIsItsSteps :
    (withCfg edgeConfig (atWord 0x00E0)).cyclesLeft = 0 ∧ 1 ≤ (withCfg edgeConfig (atWord 0x00E0)).cfg.cyclesPerTick ∧
    nextHas (fun _ => true) (step (withCfg edgeConfig (atWord 0x00E0))) = true := by decide

theorem test_witness_TimerDecrementRule :
    ((State.reset.withDt 1).withSt 0xFF).dt.toNat > 0 ∧ ((State.reset.withDt 1).withSt 0xFF).st.toNat > 0 ∧
    State.reset.dt.toNat = 0 ∧ State.reset.st.toNat = 0 := by decide

theorem test_witness_ParkedMachineStaysParked :
    Parked 0x200 (atWord 0x1200) ∧ Parked 0xFFE ((withBytes State.reset 0xFFE [0x1F, 0xFE]).withPc 0xFFE) := by
  unfold Parked
  decide

theorem test_witness_OnlyListedInstructionsFault :
    faultIs (.stackUnderflow 0x1FE) (exec .ret State.reset) = true ∧
    faultIs (.stackOverflow 0x1FE) (exec (.call 0) (State.reset.withStack 16 State.reset.stack)) = true ∧
    faultIs (.outOfBoundsAddress 0x1FE) (exec (.jpV0 0xFFF) (v1 0 1)) = true ∧
    faultIs (.outOfBoundsAddress 0x1FE) (exec (.drw 0 0 1) (State.reset.withI 0x1000)) = true ∧
    faultIs (.outOfBoundsAddress 0x1FE) (exec (.ldBVx 0) (State.reset.withI 0x0FFE)) = true ∧
    faultIs (.outOfBoundsAddress 0x1FE) (exec (.storeRegs 0) (State.reset.withI 0x1000)) = true ∧
    faultIs (.outOfBoundsAddress 0x1FE) (exec (.loadRegs 0) (State.reset.withI 0x1000)) = true := by decide

theorem test_witness_CreationState : 0 < memSize ∧ 4095 < memSize := by decide

theorem test_witness_LoadInitialisesTheMachine :
    (List.replicate 3584 (0xFF : Byte)).length ≤ maxRom ∧ ([] : List Byte).length ≤ maxRom := by
  rw [List.length_replicate]
  decide

theorem test_witness_LoadRefusesALargeRom :
    3584 < (List.replicate 3585 (0 : Byte)).length ∧ (List.replicate 3584 (0 : Byte)).length ≤ 3584 := by
  rw [List.length_replicate, List.length_replicate]
  decide

theorem test_witness_ResetReloadsTheRom :
    waiting.romBuf.length ≤ maxRom ∧ 1 < waiting.romBuf.length ∧ State.reset.romBuf.length ≤ maxRom := by decide

theorem test_witness_ResetStateValues : 0 < memSize ∧ 4095 < memSize := by decide

theorem test_witness_FontStandsInTheReservedRegion :
    (withCfg edgeConfig State.reset).cfg.wellFormed = true ∧ waiting.romBuf.length ≤ maxRom ∧
    ¬(edgeConfig.fontBase ≤ 431 ∧ 431 < edgeConfig.fontBase + 80) := by decide

theorem test_witness_HostQueriesAndInput : (63 < 64 ∧ 31 < 32) ∧ ¬(64 < 64 ∧ 0 < 32) ∧ ¬(0 < 64 ∧ 32 < 32) := by decide

theorem test_witness_MemoryIsPlainStorage : MemCanonical State.reset ∧ 4095 < memSize ∧ memSize ≤ 4096 := by
  unfold MemCanonical
  decide

theorem test_witness_FetchSeesStores :
    MemCanonical (State.reset.withPc 0xFFE) ∧
    ((State.reset.withPc 0xFFE).writeBytes (State.reset.withPc 0xFFE).pc.toNat [0x12, 0x34]).isSome = true := by
  unfold MemCanonical
  decide

theorem test_witness_StepKeepsMemoryCanonical :
    MemCanonical (atWord 0xFF55) ∧ nextHas (fun _ => true) (step (atWord 0xFF55)) = true := by
  unfold MemCanonical
  decide

/-- A pushed return address, at the highest PC a fetch can come from. -/
theorem test_witness_StepKeepsPcBounded :
    PcBounded ((withBytes State.reset 0xFFE [0x23, 0x00]).withPc 0xFFE) ∧
    nextHas (fun _ => true) (step ((withBytes State.reset 0xFFE [0x23, 0x00]).withPc 0xFFE)) = true := by
  unfold PcBounded
  decide

/-- KW is set, and the step leaves it so. -/
theorem test_witness_StepKeepsKeyWaitAtInstruction :
    KeyWaitAtInstruction waiting ∧ waiting.kw = true ∧ nextHas (fun t => t.kw) (step waiting) = true :=
  ⟨fun _ => ⟨0xF00A, 0, rfl, rfl⟩, rfl, by decide⟩

theorem test_witness_StepKeepsConfigOk :
    ConfigOk (withCfg edgeConfig (atWord 0x00E0)) ∧
    nextHas (fun _ => true) (step (withCfg edgeConfig (atWord 0x00E0))) = true := by
  unfold ConfigOk
  decide

theorem test_witness_HostOperationsKeepGoodState : edgeConfig.wellFormed = true ∧ GoodState waiting :=
  ⟨by decide, rfl, by unfold PcBounded; decide, fun _ => ⟨0xF00A, 0, rfl, rfl⟩, by unfold ConfigOk; decide⟩

/-- Each component is changed by one of its writers. -/
theorem test_witness_ComponentsChangeOnlyByTheirWriters :
    nextHas (fun t => t.getV 3 != 0) (exec (.ldImm 3 1) State.reset) = true ∧
    nextHas (fun t => t.getV 15 != 0) (exec (.shr 3 4) (v1 4 1)) = true ∧
    nextHas (fun t => t.getV 2 != 0) (exec (.loadRegs 2) (State.reset.withI 0x050)) = true ∧
    nextHas (fun t => t.i != 0) (exec (.ldI 1) State.reset) = true ∧
    nextHas (fun t => t.i != 0) (exec (.storeRegs 0) State.reset) = true ∧
    nextHas (fun t => t.memRead 0 != State.reset.memRead 0) (exec (.ldBVx 0) (v1 0 0xFF)) = true ∧
    nextHas (fun t => t.sp != 0) (exec (.call 0) State.reset) = true ∧
    nextHas (fun t => t.dt != 0) (exec (.ldDtVx 0) (v1 0 1)) = true ∧
    nextHas (fun t => t.st != 0) (exec (.ldStVx 0) (v1 0 1)) = true ∧
    nextHas (fun t => t.pix 0 0) (exec (.drw 0 0 1) (State.reset.withI 0x050)) = true ∧
    nextHas (fun t => t.kw) (exec (.ldVxK 0) State.reset) = true ∧
    nextHas (fun t => t.pc != 0x200) (exec (.jp 1) State.reset) = true := by decide

/-- A changed V[15] is a flag or a named destination, and a quirk decides for the logic operations (R34). -/
theorem test_destination_and_flag :
    (WritesFlag Config.default (.shr 3 4) ∧ ¬NamesDestination 15 (.shr 3 4)) ∧
    (NamesDestination 2 (.loadRegs 2) ∧ ¬NamesDestination 3 (.loadRegs 2)) ∧
    ¬WritesFlag Config.default (.orReg 1 2) ∧ WritesFlag { Config.default with logicVfReset := true } (.orReg 1 2) ∧
    ¬WritesFlag Config.default (.addImm 1 2) := by
  simp [WritesFlag, NamesDestination, Config.default]

theorem test_witness_ComponentsChangeOnlyByTheirWriters_draws :
    exec (.rnd 0 0xFF) State.reset = .next ((State.reset.setV 0 (randomByte 0 &&& 0xFF)).withDraws 1) := rfl

theorem test_witness_StepsLeaveInputRomAndConfig :
    nextHas (fun t => t.romBuf == [0xF0, 0x0A]) (step waiting) = true := by decide

theorem test_witness_SoundTimerAndRomAreReadByNoInstruction : ∀ x, Instr.cls ≠ .ldStVx x := fun _ h => nomatch h

theorem test_witness_ReturnPopsTheStack :
    (withEntry State.reset 16 15 0x0345).sp.val = (15 : Fin 16).val + 1 ∧
    (withEntry State.reset 1 0 0x0345).sp.val = (0 : Fin 16).val + 1 ∧ State.reset.sp = 0 := by decide

theorem test_witness_CallPushesTheReturnAddress :
    State.reset.sp.val = (0 : Fin 16).val ∧ (withEntry State.reset 15 0 0).sp.val = (15 : Fin 16).val ∧
    (withEntry State.reset 16 0 0).sp.val = 16 := by decide

/-- The last target inside memory, the first outside it, and the register of `Q_JUMP_VX`. -/
theorem test_witness_JumpWithOffset :
    (0 : Reg).val = (if State.reset.cfg.jumpVx then (0xFFF : Addr12).toNat / 256 else 0) ∧
    (0xFFF : Addr12).toNat + (State.reset.getV 0).toNat < memSize ∧
    memSize ≤ (0xFFF : Addr12).toNat + ((v1 0 1).getV 0).toNat ∧
    (2 : Reg).val = (if (withCfg { Config.default with jumpVx := true } State.reset).cfg.jumpVx
      then (0x220 : Addr12).toNat / 256 else 0) := by decide

theorem test_witness_LogicOperations :
    State.reset.cfg.logicVfReset = false ∧
    (withCfg { Config.default with logicVfReset := true } State.reset).cfg.logicVfReset = true ∧ (0 : Reg) ≠ regF := by
  decide

theorem test_witness_AddWithCarry : (0 : Reg) ≠ regF := by decide

theorem test_witness_SubtractionsWithBorrow : (14 : Reg) ≠ regF := by decide

theorem test_witness_ShiftRight :
    (5 : Byte) = (if (v2 1 4 2 5).cfg.shiftSource = .vy then (v2 1 4 2 5).getV 2 else (v2 1 4 2 5).getV 1) ∧
    (4 : Byte) = (if (withCfg { Config.default with shiftSource := .vx } (v2 1 4 2 5)).cfg.shiftSource = .vy
      then (v2 1 4 2 5).getV 2 else (v2 1 4 2 5).getV 1) := by decide

theorem test_witness_ShiftLeft :
    (0x80 : Byte) = (if (v1 2 0x80).cfg.shiftSource = .vy then (v1 2 0x80).getV 2 else (v1 2 0x80).getV 1) ∧
    (0 : Byte) = (if (withCfg { Config.default with shiftSource := .vx } (v1 2 0x80)).cfg.shiftSource = .vy
      then (v1 2 0x80).getV 2 else (v1 2 0x80).getV 1) := by decide

theorem test_witness_PointAtGlyph : (withCfg edgeConfig State.reset).cfg.wellFormed = true := by decide

theorem test_witness_StoreDecimalDigits :
    MemCanonical (State.reset.withI 0x0FFD) ∧ (State.reset.withI 0x0FFD).indexAddr + 3 ≤ memSize ∧
    memSize < (State.reset.withI 0x0FFE).indexAddr + 3 := by
  unfold MemCanonical
  decide

theorem test_witness_StoreRegisterBlock :
    MemCanonical (State.reset.withI 0x0FF0) ∧ (State.reset.withI 0x0FF0).indexAddr + (15 : Reg).val + 1 ≤ memSize ∧
    memSize < (State.reset.withI 0x0FF1).indexAddr + (15 : Reg).val + 1 := by
  unfold MemCanonical
  decide

theorem test_witness_LoadRegisterBlock :
    (State.reset.withI 0x0FFF).indexAddr + (0 : Reg).val + 1 ≤ memSize ∧
    memSize < (State.reset.withI 0x1000).indexAddr + (0 : Reg).val + 1 := by decide

theorem test_witness_DrawSprite :
    (State.reset.withI 0x0FFB).indexAddr + (5 : BitVec 4).toNat ≤ memSize ∧
    (5 : BitVec 4) ≠ 0 ∧ memSize < (State.reset.withI 0x0FFC).indexAddr + (5 : BitVec 4).toNat := by decide

theorem test_witness_EdgePolicy :
    (63 < 64 ∧ 31 < 32) ∧ ¬(64 < 64 ∧ 31 < 32) ∧ place .wrap (63 + 7) (31 + 14) = some (6, 13) ∧
    place .clip (56 + 7) (17 + 14) = some (63, 31) := by decide

/-- The glyph of 0 drawn at (0, 0) and drawn again. -/
theorem test_witness_DrawTwiceRestores :
    ∃ t w : State, exec (.drw 0 0 5) (State.reset.withI 0x050) = .next t ∧ t.i = 0x050 ∧ t.mem = [] ∧
      t.getV 0 = 0 ∧ exec (.drw 0 0 5) t = .next w :=
  ⟨_, _, rfl, rfl, rfl, rfl, rfl⟩

/-- A sprite with no rows has no set bits. -/
theorem test_witness_DrawTwiceRestores_blank : ∀ px py, spriteBit State.reset 0 0 (0 : BitVec 4).toNat px py = false :=
  fun _ _ => rfl

theorem test_witness_SkipsOnAKey : (5 : Fin 16).val = ((v1 1 0x15).getV 1).toNat % 16 := by decide

theorem test_witness_WaitForKey :
    (withPressed State.reset [3, 12]).key 3 = true ∧
    (∀ j : Fin 16, j < 3 → (withPressed State.reset [3, 12]).key j = false) ∧ (∀ k, State.reset.key k = false) := by
  decide

end Sys2Proof.Tests
end

section
/-!
PROOFS. The scope family: the configuration, the resident ROM and the tick's loop counter keep their bounds along every
step (spec/00_scope.md R6, spec/10_state.md R32, R33; log entries 1, 2).
-/

namespace Sys2Proof.Machine

/-! ## What an instruction that goes on leaves alone, component by component -/

section
variable {i : Instr} {s t : State} (h : exec i s = .next t)
include h

/-- R33. -/
theorem exec_cfg : t.cfg = s.cfg := (congrArg State.cfg (exec_frame h) :)

/-- R32. -/
theorem exec_romBuf : t.romBuf = s.romBuf := (congrArg State.romBuf (exec_frame h) :)

theorem exec_cyclesLeft : t.cyclesLeft = s.cyclesLeft := (congrArg State.cyclesLeft (exec_frame h) :)

end

/-! ## Entering a tick -/

theorem State.enterTick_of_zero {s : State} (h : s.cyclesLeft = 0) :
    s.enterTick = s.timerDecrement.withCyclesLeft s.cfg.cyclesPerTick := if_pos h

theorem State.enterTick_of_ne_zero {s : State} (h : s.cyclesLeft ≠ 0) : s.enterTick = s := if_neg h

/-! ## `ConfigOk` through the parts of a step -/

/-- `ConfigOk` depends on the configuration, ROMBUF and the loop counter alone. -/
theorem ConfigOk.congr {s t : State} (hs : ConfigOk s) (hcfg : t.cfg = s.cfg) (hrom : t.romBuf = s.romBuf)
    (hleft : t.cyclesLeft = s.cyclesLeft) : ConfigOk t := by
  simpa only [ConfigOk, hcfg, hrom, hleft] using hs

/-- The loop counter may be set to anything within the budget. -/
theorem ConfigOk.withCyclesLeft {s : State} (hs : ConfigOk s) {n : Nat} (hn : n ≤ s.cfg.cyclesPerTick) :
    ConfigOk (s.withCyclesLeft n) := by
  obtain ⟨hcfg, hrom, -⟩ := hs
  exact ⟨hcfg, hrom, hn⟩

/-- A tick begins with its whole budget, and R237's timer decrement touches nothing `ConfigOk` speaks of. -/
theorem ConfigOk.enterTick {s : State} (hs : ConfigOk s) : ConfigOk s.enterTick := by
  by_cases h0 : s.cyclesLeft = 0
  · have hdec : ConfigOk s.timerDecrement := hs.congr rfl rfl rfl
    rw [State.enterTick_of_zero h0]
    exact hdec.withCyclesLeft le_rfl
  · rwa [State.enterTick_of_ne_zero h0]

theorem ConfigOk.advance {s : State} (hs : ConfigOk s) : ConfigOk s.advance := hs.congr rfl rfl rfl

theorem ConfigOk.exec_next {i : Instr} {s t : State} (hs : ConfigOk s) (h : exec i s = .next t) : ConfigOk t :=
  hs.congr (exec_cfg h) (exec_romBuf h) (exec_cyclesLeft h)

/-- Settles O29: entering the tick, advancing PC and executing each keep `ConfigOk`, and counting the cycle only lowers
the counter. -/
theorem stepKeepsConfigOk : Obligations.StepKeepsConfigOk := by
  intro s t hs h
  obtain ⟨_, i, u, _, _, hexec, rfl⟩ := step_next h
  have hu : ConfigOk u := hs.enterTick.advance.exec_next hexec
  have ⟨_, _, hleft⟩ := hu
  exact hu.withCyclesLeft (by omega)

end Sys2Proof.Machine
end

section
/-!
PROOFS. The state family: what each instruction that goes on may change, component by component, which instruction
reads no ST and no ROMBUF, the key-wait invariant, and the values after reset (spec/10_state.md R20..R37).
-/

namespace Sys2Proof.Machine

/-! ## What the instructions with several ways to end have done when they go on -/

section
variable {s t : State}

/-- R100: the popped entry stays in the stack's array. -/
theorem exec_ret_next (h : exec .ret s = .next t) : ∃ sp w, t = (s.withStack sp s.stack).withPc w := by
  rcases s.pop_spec with ⟨_, _, hpop⟩ | ⟨_, hpop⟩ <;> simp only [exec, execRet, hpop] at h
  · cases h; exact ⟨_, _, rfl⟩
  · cases h

/-- R102. -/
theorem exec_call_next {nnn : Addr12} (h : exec (.call nnn) s = .next t) :
    ∃ sp stack, t = (s.withStack sp stack).withPc (nnn.setWidth 16) := by
  rcases s.push_spec s.pc with ⟨_, hpush⟩ | ⟨_, hpush⟩ <;> simp only [exec, execCall, hpush] at h
  · cases h; exact ⟨_, _, rfl⟩
  · cases h

/-- R107. -/
theorem exec_jpV0_next {nnn : Addr12} (h : exec (.jpV0 nnn) s = .next t) :
    t = s.withPc (BitVec.ofNat 16 (s.jumpTarget nnn)) := by
  simp only [exec, execJpV0] at h
  split at h
  · cases h; rfl
  · cases h

/-- R192. -/
theorem exec_drw_next {x y : Reg} {n : BitVec 4} (h : exec (.drw x y n) s = .next t) :
    ∃ display flag, t = (s.withDisplay display).setV regF flag := by
  rcases s.readBytes_spec s.indexAddr n.toNat with ⟨_, hread⟩ | ⟨_, hread⟩ <;> simp only [exec, execDrw, hread] at h
  · cases h; exact ⟨_, _, rfl⟩
  · cases h

/-- R163. -/
theorem exec_ldBVx_next {x : Reg} (h : exec (.ldBVx x) s = .next t) : ∃ mem, t = s.withMem mem := by
  rcases s.writeBytes_spec s.indexAddr (decimalDigits (s.getV x)) with ⟨_, hwrite⟩ | ⟨_, hwrite⟩ <;>
    simp only [exec, execLdBVx, hwrite] at h
  · cases h; exact ⟨_, rfl⟩
  · cases h

/-- R164. -/
theorem exec_storeRegs_next {x : Reg} (h : exec (.storeRegs x) s = .next t) :
    ∃ mem, t = (s.withMem mem).bumpIndex x := by
  rcases s.writeBytes_spec s.indexAddr (s.getVs (x.val + 1)) with ⟨_, hwrite⟩ | ⟨_, hwrite⟩ <;>
    simp only [exec, execStoreRegs, hwrite] at h
  · cases h; exact ⟨_, rfl⟩
  · cases h

/-- R165: exactly the X + 1 bytes that V0..VX take. -/
theorem exec_loadRegs_next {x : Reg} (h : exec (.loadRegs x) s = .next t) :
    ∃ bs : List Byte, bs.length = x.val + 1 ∧ t = (s.setVs 0 bs).bumpIndex x := by
  rcases s.readBytes_spec s.indexAddr (x.val + 1) with ⟨_, hread⟩ | ⟨_, hread⟩ <;>
    simp only [exec, execLoadRegs, hread] at h
  · cases h; exact ⟨_, memGetList_length .., rfl⟩
  · cases h

/-- R215: a key is taken, or PC goes back to wait for one. -/
theorem exec_ldVxK_next {x : Reg} (h : exec (.ldVxK x) s = .next t) :
    (∃ b, t = (s.setV x b).withKw false) ∨ t = (s.withPc s.pc0).withKw true := by
  simp only [exec, execLdVxK] at h
  split at h
  · cases h; exact .inl ⟨_, rfl⟩
  · cases h; exact .inr rfl

theorem skipIf_next {c : Bool} (h : skipIf c s = .next t) : t = s.withPc t.pc := by
  cases c <;> (cases h; rfl)

end

/-! ## The components an instruction may write -/

/-- R135..R137: a logic operation changes the register file and nothing else. -/
theorem logicResult_frame (x : Reg) (b : Byte) (s : State) :
    logicResult x b s = s.withV (logicResult x b s).v := by
  unfold logicResult
  split <;> rfl

/-- R164, R165. -/
theorem State.bumpIndex_frame (s : State) (x : Reg) : s.bumpIndex x = s.withI (s.bumpIndex x).i := by
  unfold State.bumpIndex
  split <;> rfl

/-- `t` is `s` but for the components that the instruction's rule lets it write. -/
def DiffersInWritten (s t : State) : Instr → Prop
  | .cls => t = s.withDisplay t.display
  | .ret | .call _ => t = (s.withStack t.sp t.stack).withPc t.pc
  | .jp _ | .jpV0 _ | .seImm _ _ | .sneImm _ _ | .seReg _ _ | .sneReg _ _ | .skp _ | .sknp _ => t = s.withPc t.pc
  | .ldImm _ _ | .addImm _ _ | .ldReg _ _ | .orReg _ _ | .andReg _ _ | .xorReg _ _ | .ldVxDt _ => t = s.withV t.v
  | .addReg _ _ | .subReg _ _ | .shr _ _ | .subn _ _ | .shl _ _ => t = s.withV t.v
  | .rnd _ _ => t = (s.withV t.v).withDraws t.draws
  | .ldI _ | .addIVx _ | .ldFVx _ => t = s.withI t.i
  | .drw _ _ _ => t = (s.withDisplay t.display).withV t.v
  | .ldVxK _ => t = ((s.withV t.v).withPc t.pc).withKw t.kw
  | .ldDtVx _ => t = s.withDt t.dt
  | .ldStVx _ => t = s.withSt t.st
  | .ldBVx _ => t = s.withMem t.mem
  | .storeRegs _ => t = (s.withMem t.mem).withI t.i
  | .loadRegs _ => t = (s.withV t.v).withI t.i

theorem exec_differsInWritten {i : Instr} {s t : State} (h : exec i s = .next t) : DiffersInWritten s t i := by
  cases i
  case ret => obtain ⟨_, _, rfl⟩ := exec_ret_next h; rfl
  case call => obtain ⟨_, _, rfl⟩ := exec_call_next h; rfl
  case jpV0 => rw [exec_jpV0_next h]; rfl
  case seImm | sneImm | seReg | sneReg | skp | sknp => exact skipIf_next h
  case orReg | andReg | xorReg => cases h; exact logicResult_frame ..
  case drw => obtain ⟨_, _, rfl⟩ := exec_drw_next h; rfl
  case ldVxK => obtain ⟨_, rfl⟩ | rfl := exec_ldVxK_next h <;> rfl
  case ldBVx => obtain ⟨_, rfl⟩ := exec_ldBVx_next h; rfl
  case storeRegs x =>
    obtain ⟨mem, rfl⟩ := exec_storeRegs_next h
    rw [State.bumpIndex_frame]; rfl
  case loadRegs x =>
    obtain ⟨bs, _, rfl⟩ := exec_loadRegs_next h
    rw [State.bumpIndex_frame, State.setVs_frame]; rfl
  all_goals cases h; rfl

/-! ## Each component's writers -/

/-- R21: a register that reads otherwise after a register write is the one written. -/
theorem State.eq_of_getV_setV_ne {s : State} {x r : Reg} {b : Byte} (h : (s.setV x b).getV r ≠ s.getV r) : r = x := by
  by_contra hr
  simp [hr] at h

theorem State.eq_of_getV_setVF_ne {s : State} {x r : Reg} {b f : Byte} (h : (s.setVF x b f).getV r ≠ s.getV r) :
    r = x ∨ r = regF := by
  by_contra hr
  obtain ⟨hx, hf⟩ := not_or.mp hr
  simp [hx, hf] at h

/-- R135..R137: VF only under `Q_LOGIC_VF_RESET`. -/
theorem eq_of_getV_logicResult_ne {s : State} {x r : Reg} {b : Byte} (h : (logicResult x b s).getV r ≠ s.getV r) :
    r = x ∨ (r = regF ∧ s.cfg.logicVfReset = true) := by
  unfold logicResult at h
  split at h
  · next hq => exact (State.eq_of_getV_setVF_ne h).imp_right (⟨·, hq⟩)
  · exact .inl (State.eq_of_getV_setV_ne h)

theorem State.getV_bumpIndex (s : State) (x r : Reg) : (s.bumpIndex x).getV r = s.getV r := by
  rw [State.bumpIndex_frame]; rfl

/-- R24. -/
theorem State.indexInc_of_bumpIndex_ne {s : State} {x : Reg} (h : (s.bumpIndex x).i ≠ s.i) : s.cfg.indexInc = true := by
  by_contra hq
  rw [State.bumpIndex, if_neg hq] at h
  exact h rfl

section
variable {i : Instr} {s t : State} (h : exec i s = .next t)
include h

/-- R30. -/
theorem exec_keys : t.keys = s.keys := (congrArg State.keys (exec_frame h) :)

/-- R21, R34. -/
theorem exec_writer_of_getV_ne {r : Reg} (hne : t.getV r ≠ s.getV r) :
    NamesDestination r i ∨ (r = regF ∧ WritesFlag s.cfg i) := by
  have hframe := exec_differsInWritten h
  cases i
  case ldImm | addImm | ldReg | ldVxDt | rnd => cases h; exact .inl (State.eq_of_getV_setV_ne hne)
  case addReg | subReg | shr | subn | shl =>
    cases h; exact (State.eq_of_getV_setVF_ne hne).imp_right (⟨·, trivial⟩)
  case orReg | andReg | xorReg => cases h; exact eq_of_getV_logicResult_ne hne
  case drw =>
    obtain ⟨display, _, rfl⟩ := exec_drw_next h
    exact .inr ⟨State.eq_of_getV_setV_ne (s := s.withDisplay display) hne, trivial⟩
  case ldVxK =>
    obtain ⟨_, rfl⟩ | rfl := exec_ldVxK_next h
    · exact .inl (State.eq_of_getV_setV_ne hne)
    · exact absurd rfl hne
  case loadRegs x =>
    obtain ⟨bs, hlen, rfl⟩ := exec_loadRegs_next h
    have hget := (State.setVs_spec bs s 0 (by omega)).1 r
    refine .inl (show r.val ≤ x.val from ?_)
    by_contra hr
    rw [State.getV_bumpIndex, hget, if_neg (by omega)] at hne
    exact hne rfl
  all_goals exact absurd (congrArg (State.getV · r) hframe) hne

/-- R24. -/
theorem exec_writer_of_i_ne (hne : t.i ≠ s.i) :
    (∃ nnn, i = .ldI nnn) ∨ (∃ x, i = .addIVx x) ∨ (∃ x, i = .ldFVx x) ∨
      (s.cfg.indexInc = true ∧ ((∃ x, i = .storeRegs x) ∨ ∃ x, i = .loadRegs x)) := by
  have hframe := exec_differsInWritten h
  cases i
  case ldI => exact .inl ⟨_, rfl⟩
  case addIVx => exact .inr (.inl ⟨_, rfl⟩)
  case ldFVx => exact .inr (.inr (.inl ⟨_, rfl⟩))
  case storeRegs x =>
    obtain ⟨mem, rfl⟩ := exec_storeRegs_next h
    exact .inr (.inr (.inr ⟨State.indexInc_of_bumpIndex_ne (s := s.withMem mem) hne, .inl ⟨x, rfl⟩⟩))
  case loadRegs x =>
    obtain ⟨bs, _, rfl⟩ := exec_loadRegs_next h
    rw [State.setVs_frame] at hne
    exact .inr (.inr (.inr ⟨State.indexInc_of_bumpIndex_ne (s := s.withV (s.setVs 0 bs).v) hne, .inr ⟨x, rfl⟩⟩))
  all_goals exact absurd (congrArg State.i hframe) hne

/-- R37. -/
theorem exec_writer_of_mem_ne (hne : t.mem ≠ s.mem) : (∃ x, i = .ldBVx x) ∨ ∃ x, i = .storeRegs x := by
  have hframe := exec_differsInWritten h
  cases i
  case ldBVx => exact .inl ⟨_, rfl⟩
  case storeRegs => exact .inr ⟨_, rfl⟩
  all_goals exact absurd (congrArg State.mem hframe) hne

/-- R27. -/
theorem exec_writer_of_stack_ne (hne : t.sp ≠ s.sp ∨ t.stack ≠ s.stack) : i = .ret ∨ ∃ nnn, i = .call nnn := by
  have hframe := exec_differsInWritten h
  cases i
  case ret => exact .inl rfl
  case call => exact .inr ⟨_, rfl⟩
  all_goals
    rcases hne with hne | hne
    · exact absurd (congrArg State.sp hframe) hne
    · exact absurd (congrArg State.stack hframe) hne

/-- R28. -/
theorem exec_writer_of_dt_ne (hne : t.dt ≠ s.dt) : ∃ x, i = .ldDtVx x := by
  have hframe := exec_differsInWritten h
  cases i
  case ldDtVx => exact ⟨_, rfl⟩
  all_goals exact absurd (congrArg State.dt hframe) hne

/-- R28. -/
theorem exec_writer_of_st_ne (hne : t.st ≠ s.st) : ∃ x, i = .ldStVx x := by
  have hframe := exec_differsInWritten h
  cases i
  case ldStVx => exact ⟨_, rfl⟩
  all_goals exact absurd (congrArg State.st hframe) hne

/-- R29. -/
theorem exec_writer_of_display_ne (hne : t.display ≠ s.display) : i = .cls ∨ ∃ x y n, i = .drw x y n := by
  have hframe := exec_differsInWritten h
  cases i
  case cls => exact .inl rfl
  case drw => exact .inr ⟨_, _, _, rfl⟩
  all_goals exact absurd (congrArg State.display hframe) hne

/-- R31. -/
theorem exec_writer_of_kw_ne (hne : t.kw ≠ s.kw) : ∃ x, i = .ldVxK x := by
  have hframe := exec_differsInWritten h
  cases i
  case ldVxK => exact ⟨_, rfl⟩
  all_goals exact absurd (congrArg State.kw hframe) hne

/-- Log entry 3. -/
theorem exec_writer_of_draws_ne (hne : t.draws ≠ s.draws) : ∃ x nn, i = .rnd x nn := by
  have hframe := exec_differsInWritten h
  cases i
  case rnd => exact ⟨_, _, rfl⟩
  all_goals exact absurd (congrArg State.draws hframe) hne

/-- R25. -/
theorem exec_writer_of_pc_ne (hne : t.pc ≠ s.pc) :
    i = .ret ∨ (∃ nnn, i = .jp nnn) ∨ (∃ nnn, i = .call nnn) ∨ (∃ nnn, i = .jpV0 nnn) ∨
      (∃ x nn, i = .seImm x nn) ∨ (∃ x nn, i = .sneImm x nn) ∨ (∃ x y, i = .seReg x y) ∨ (∃ x y, i = .sneReg x y) ∨
      (∃ x, i = .skp x) ∨ (∃ x, i = .sknp x) ∨ (∃ x, i = .ldVxK x) := by
  have hframe := exec_differsInWritten h
  cases i
  case ret | jp | call | jpV0 | seImm | sneImm | seReg | sneReg | skp | sknp | ldVxK => simp
  all_goals exact absurd (congrArg State.pc hframe) hne

end

/-- Settles O32: one clause per component, each by the components its instruction may write. -/
theorem componentsChangeOnlyByTheirWriters : Obligations.ComponentsChangeOnlyByTheirWriters := by
  intro i s t h
  have hmem : ¬MemSame s t → t.mem ≠ s.mem := mt (State.memRead_congr (exec_cfg h))
  exact ⟨fun _ => exec_writer_of_getV_ne h, exec_writer_of_i_ne h, fun hne => exec_writer_of_mem_ne h (hmem hne),
    exec_writer_of_stack_ne h, exec_writer_of_dt_ne h, exec_writer_of_st_ne h, exec_writer_of_display_ne h,
    exec_writer_of_kw_ne h, exec_writer_of_draws_ne h, exec_writer_of_pc_ne h,
    exec_keys h, exec_romBuf h, exec_cfg h, exec_cyclesLeft h⟩

/-! ## Steps -/

/-- R237: entering a tick touches the timers and the tick's loop counter alone. -/
theorem State.enterTick_frame (s : State) :
    s.enterTick = ((s.withDt s.enterTick.dt).withSt s.enterTick.st).withCyclesLeft s.enterTick.cyclesLeft := by
  by_cases h0 : s.cyclesLeft = 0
  · rw [State.enterTick_of_zero h0]; rfl
  · rw [State.enterTick_of_ne_zero h0]; rfl

/-- Settles O33: neither entering the tick nor an instruction writes any of the three. -/
theorem stepsLeaveInputRomAndConfig : Obligations.StepsLeaveInputRomAndConfig := by
  intro s t h
  obtain ⟨_, _, u, _, _, hexec, rfl⟩ := step_next h
  have htick := s.enterTick_frame
  exact ⟨(exec_keys hexec).trans (congrArg State.keys htick :), (exec_romBuf hexec).trans (congrArg State.romBuf htick :),
    (exec_cfg hexec).trans (congrArg State.cfg htick :)⟩

/-- R31, R215: an FX0A that leaves KW set has put PC back on itself, so that the next fetch is the same word. -/
theorem fetch_of_ldVxK_waits {s t : State} {x : Reg} (h : exec (.ldVxK x) s.advance = .next t) (hkw : t.kw = true) :
    t.fetch = s.fetch := by
  obtain ⟨_, rfl⟩ | rfl := exec_ldVxK_next h
  · cases hkw
  · exact State.fetch_congr s.advance_pc0 rfl rfl

/-- Settles O28: a set KW after the step was set before it, at an FX0A, or is set by it; either way the step ran an
FX0A, and PC is back at it. -/
theorem stepKeepsKeyWaitAtInstruction : Obligations.StepKeepsKeyWaitAtInstruction := by
  intro s t hs h
  obtain ⟨op, i, u, hfetch, hdecode, hexec, rfl⟩ := step_next h
  intro (hkw : u.kw = true)
  have hwait : ∃ x, i = .ldVxK x := by
    by_cases hkw₀ : s.kw = true
    · obtain ⟨op', x, hfetch', hdecode'⟩ := hs hkw₀
      cases hfetch.symm.trans hfetch'
      cases hdecode.symm.trans hdecode'
      exact ⟨x, rfl⟩
    · have hbefore : s.enterTick.advance.kw = s.kw := (congrArg State.kw s.enterTick_frame :)
      exact exec_writer_of_kw_ne hexec fun heq => hkw₀ (hbefore ▸ heq ▸ hkw)
  obtain ⟨x, rfl⟩ := hwait
  have hstay : u.fetch = some op := (fetch_of_ldVxK_waits hexec hkw).trans (s.enterTick_fetch.trans hfetch)
  exact ⟨op, x, hstay, hdecode⟩

/-! ## ST and ROMBUF are read by no instruction -/

/-- Replace ST and ROMBUF together: the two components that no instruction reads (R28, R32). -/
def State.withUnread (s : State) (b : Byte) (rom : List Byte) : State := { s with st := b, romBuf := rom }

theorem State.withSt_eq_withUnread (s : State) (b : Byte) : s.withSt b = s.withUnread b s.romBuf := rfl

section
variable (s : State) (b : Byte) (rom : List Byte)

theorem State.withUnread_pc : (s.withUnread b rom).pc = s.pc := rfl
theorem State.withUnread_indexAddr : (s.withUnread b rom).indexAddr = s.indexAddr := rfl
theorem State.withUnread_lowestKey : (s.withUnread b rom).lowestKey = s.lowestKey := rfl

theorem State.getV_withUnread (r : Reg) : (s.withUnread b rom).getV r = s.getV r := rfl

theorem State.getVs_withUnread (n : Nat) : (s.withUnread b rom).getVs n = s.getVs n := rfl

theorem State.readBytes_withUnread (a n : Nat) : (s.withUnread b rom).readBytes a n = s.readBytes a n := rfl

theorem State.writeBytes_withUnread (a : Nat) (bs : List Byte) :
    (s.withUnread b rom).writeBytes a bs = (s.writeBytes a bs).map (·.withUnread b rom) := by
  unfold State.writeBytes
  split <;> rfl

theorem State.pop_withUnread :
    (s.withUnread b rom).pop = s.pop.map fun p => (p.1, p.2.withUnread b rom) := by
  unfold State.pop
  rw [apply_dite (Option.map _)]
  rfl

theorem State.push_withUnread (w : Word) :
    (s.withUnread b rom).push w = (s.push w).map (·.withUnread b rom) := by
  unfold State.push
  rw [apply_dite (Option.map _)]
  rfl

theorem State.setVs_withUnread (k : Nat) (bs : List Byte) :
    (s.withUnread b rom).setVs k bs = (s.setVs k bs).withUnread b rom := by
  induction bs generalizing s k with
  | nil => rfl
  | cons c bs ih =>
    unfold State.setVs
    split
    · next hk => exact ih (s.setV ⟨k, hk⟩ c) (k + 1)
    · rfl

theorem State.bumpIndex_withUnread (x : Reg) :
    (s.withUnread b rom).bumpIndex x = (s.bumpIndex x).withUnread b rom := by
  unfold State.bumpIndex
  rw [apply_ite (State.withUnread · b rom)]
  rfl

theorem logicResult_withUnread (x : Reg) (c : Byte) :
    logicResult x c (s.withUnread b rom) = (logicResult x c s).withUnread b rom := by
  unfold logicResult
  rw [apply_ite (State.withUnread · b rom)]
  rfl

theorem skipIf_withUnread (c : Bool) :
    skipIf c (s.withUnread b rom) = mapNext (·.withUnread b rom) (skipIf c s) := by
  cases c <;> rfl

/-- The instructions that can fault, and FX0A, branch on what they read, which is the same; all others go on alike. -/
theorem exec_withUnread {i : Instr} (hi : ∀ x, i ≠ .ldStVx x) :
    exec i (s.withUnread b rom) = mapNext (·.withUnread b rom) (exec i s) := by
  cases i
  case ldStVx x => exact absurd rfl (hi x)
  case ret =>
    simp only [exec, execRet, State.pop_withUnread]
    cases s.pop <;> rfl
  case call nnn =>
    simp only [exec, execCall, State.withUnread_pc, State.push_withUnread]
    cases s.push s.pc <;> rfl
  case jpV0 nnn =>
    simp only [exec, execJpV0]
    rw [apply_ite (mapNext _)]
    rfl
  case seImm | sneImm | seReg | sneReg | skp | sknp => exact skipIf_withUnread ..
  case orReg | andReg | xorReg => exact congrArg Host.Outcome.next (logicResult_withUnread ..)
  case drw x y n =>
    simp only [exec, execDrw, State.withUnread_indexAddr, State.readBytes_withUnread]
    cases s.readBytes s.indexAddr n.toNat <;> rfl
  case ldVxK x =>
    simp only [exec, execLdVxK, State.withUnread_lowestKey]
    cases s.lowestKey <;> rfl
  case ldBVx x =>
    simp only [exec, execLdBVx, State.withUnread_indexAddr, State.getV_withUnread, State.writeBytes_withUnread]
    cases s.writeBytes s.indexAddr (decimalDigits (s.getV x)) <;> rfl
  case storeRegs x =>
    simp only [exec, execStoreRegs, State.withUnread_indexAddr, State.getVs_withUnread, State.writeBytes_withUnread]
    cases s.writeBytes s.indexAddr (s.getVs (x.val + 1)) with
    | none => rfl
    | some u => exact congrArg Host.Outcome.next (u.bumpIndex_withUnread b rom x)
  case loadRegs x =>
    simp only [exec, execLoadRegs, State.withUnread_indexAddr, State.readBytes_withUnread, State.setVs_withUnread,
      State.bumpIndex_withUnread]
    cases s.readBytes s.indexAddr (x.val + 1) <;> rfl
  all_goals rfl

end

/-- Changes of the next state that agree on the next state there is are the same change. -/
theorem mapNext_congr {f g : State → State} {o : Host.Outcome State Fault Refusal}
    (h : ∀ t, o = .next t → f t = g t) : mapNext f o = mapNext g o := by
  cases o with
  | next t => exact congrArg Host.Outcome.next (h t rfl)
  | fault => rfl
  | refused => rfl

/-- Settles O34: ST and ROMBUF replaced together pass through every instruction but FX18, and the one of the two that is
not meant to change is not written. -/
theorem soundTimerAndRomAreReadByNoInstruction : Obligations.SoundTimerAndRomAreReadByNoInstruction := by
  refine ⟨fun i s b hi => ?_, fun _ _ _ => rfl, fun i s rom => ?_⟩
  · calc exec i (s.withSt b)
        = mapNext (·.withUnread b s.romBuf) (exec i s) := exec_withUnread s b s.romBuf hi
      _ = mapNext (·.withSt b) (exec i s) := mapNext_congr fun t ht => by
        rw [← exec_romBuf ht, State.withSt_eq_withUnread]
  · by_cases hi : ∃ x, i = .ldStVx x
    · obtain ⟨x, rfl⟩ := hi
      rfl
    · calc exec i (s.withUnread s.st rom)
          = mapNext (·.withUnread s.st rom) (exec i s) := exec_withUnread s s.st rom (not_exists.mp hi)
        _ = mapNext (fun t => { t with romBuf := rom }) (exec i s) := mapNext_congr fun t ht => by
          have hst : t.st = s.st := not_imp_comm.mp (exec_writer_of_st_ne ht) hi
          rw [← hst]
          rfl

/-! ## The state after reset -/

/-- R57: what an unlisted cell reads as is the glyph byte of R57's table, or zero. -/
theorem initialByte_eq_fontOrZero (fb a : Nat) : initialByte fb a = fontOrZero fb a := by
  have htable : ∀ k < fontBytes, fontGlyphs.getD k 0 = (glyphTable.getD (k / 5) []).getD (k % 5) 0 := by decide
  unfold initialByte fontOrZero
  by_cases hin : fb ≤ a ∧ a < fb + fontBytes
  · rw [if_pos hin.1, if_pos hin]
    exact htable _ (by omega)
  · rw [if_neg hin]
    split
    · exact List.getD_eq_default _ _ (show fontBytes ≤ a - fb by omega)
    · rfl

/-- R270, R271: a memory with no listed cell holds the font and nothing else. -/
theorem State.memRead_of_mem_nil {s : State} (hm : s.mem = []) {a : Nat} (ha : a < memSize) :
    s.memRead a = some (fontOrZero s.cfg.fontBase a) := by
  rw [s.memRead_of_lt ha, hm, ← initialByte_eq_fontOrZero]
  rfl

/-- R20, R190. -/
theorem pixelOf_blank (x y : Nat) : pixelOf (Vector.replicate 32 0) x y = false := by
  unfold pixelOf
  split <;> simp

/-- R20. -/
theorem cleared_reset : Cleared State.reset := by
  refine ⟨fun r => ?_, rfl, rfl, fun k => ?_, rfl, rfl, pixelOf_blank, fun k => ?_, rfl⟩
  · simp [State.getV, State.reset]
  · simp [State.reset]
  · simp [State.key, State.reset]

/-- Settles O21: R20's zeros, and the font because no cell is listed. -/
theorem resetStateValues : Obligations.ResetStateValues :=
  ⟨rfl, cleared_reset, rfl, rfl, fun _ ha => State.memRead_of_mem_nil rfl ha⟩

/-- Settles O30: no cell is listed, no return address is held and KW is off. -/
theorem resetIsAGoodState : Obligations.ResetIsAGoodState := by
  have hmem : MemCanonical State.reset := rfl
  have hpc : PcBounded State.reset := ⟨by decide, fun _ hk => absurd hk (Nat.not_lt_zero _)⟩
  have hkw : KeyWaitAtInstruction State.reset := fun hkw => nomatch hkw
  have hcfg : ConfigOk State.reset := ⟨rfl, rfl, Nat.zero_le _⟩
  exact ⟨hmem, hpc, hkw, hcfg⟩

end Sys2Proof.Machine
end

section
/-!
PROOFS. The memory family: what a block write answers and how reads and fetches see it, the font below the load address,
and the canonical form along every step (spec/20_memory.md R50..R64).
-/

namespace Sys2Proof.Machine

/-! ## Block writes -/

section
variable {s t : State} {a : Nat} {bs : List Byte}

/-- R54, R64. -/
theorem State.writeBytes_eq_some_iff : s.writeBytes a bs = some t ↔
    (bs.length = 0 ∨ a + bs.length ≤ memSize) ∧ t = s.withMem (memSetList s.cfg.fontBase s.mem a bs) := by
  rw [← checkRange_iff]
  obtain ⟨hfits, hwrite⟩ | ⟨hfits, hwrite⟩ := s.writeBytes_spec a bs <;> simp [hfits, hwrite, eq_comm]

theorem State.writeBytes_frame (h : s.writeBytes a bs = some t) : t = s.withMem t.mem := by
  obtain ⟨-, rfl⟩ := State.writeBytes_eq_some_iff.mp h
  rfl

/-- R51, R54: a read after a block write gives the block's byte inside it and the old byte, or none, outside it. -/
theorem State.memRead_of_writeBytes (hs : MemCanonical s) (h : s.writeBytes a bs = some t) (k : Nat) :
    t.memRead k = if a ≤ k ∧ k < a + bs.length then some (bs.getD (k - a) 0) else s.memRead k := by
  obtain ⟨hempty | hfits, rfl⟩ := State.writeBytes_eq_some_iff.mp h
  · rw [List.length_eq_zero_iff.mp hempty, if_neg (by simp)]
    rfl
  · by_cases hk : k < memSize
    · rw [State.memRead_of_lt _ hk, State.memRead_of_lt _ hk]
      exact (congrArg some (memGet_memSetList bs hs hfits k)).trans (apply_ite some ..)
    · rw [State.memRead_of_ge _ (by omega), State.memRead_of_ge _ (by omega), if_neg (by omega)]

end

/-- Settles O24: one byte fits at every address of memory, and reads after the write see it there alone. -/
theorem memoryIsPlainStorage : Obligations.MemoryIsPlainStorage := by
  refine ⟨fun s a b hs ha => ⟨⟨_, s.memRead_of_lt ha⟩, ?_⟩, fun s a b ha => ⟨s.memRead_of_ge ha, ?_⟩⟩
  · obtain ⟨t, hwrite⟩ : ∃ t, s.writeBytes a [b] = some t :=
      ⟨_, State.writeBytes_eq_some_iff.mpr ⟨.inr ha, rfl⟩⟩
    have hread := State.memRead_of_writeBytes hs hwrite
    refine ⟨t, hwrite, ?_, fun k hk => (hread k).trans (if_neg hk), State.writeBytes_frame hwrite⟩
    simp [hread]
  · refine Option.eq_none_iff_forall_ne_some.mpr fun t hwrite => ?_
    obtain ⟨hfits, -⟩ := State.writeBytes_eq_some_iff.mp hwrite
    simp only [List.length_singleton] at hfits
    omega

/-! ## Fetches -/

/-- R53. -/
theorem wordOfBytes_eq_ofNat (hi lo : Byte) : wordOfBytes hi lo = BitVec.ofNat 16 (256 * hi.toNat + lo.toNat) := by
  rw [← wordOfBytes_toNat, BitVec.ofNat_toNat, BitVec.setWidth_eq]

/-- R63, R71: a fetch reads the two bytes at PC. -/
theorem State.fetch_of_memRead {s : State} {hi lo : Byte} (hhi : s.memRead s.pc.toNat = some hi)
    (hlo : s.memRead (s.pc.toNat + 1) = some lo) : s.fetch = some (wordOfBytes hi lo) := by
  obtain ⟨hpc, hfetch⟩ | ⟨hpc, -⟩ := s.fetch_spec
  · rw [s.memRead_of_lt (by omega)] at hhi
    rw [s.memRead_of_lt hpc] at hlo
    cases hhi
    cases hlo
    exact hfetch
  · rw [s.memRead_of_ge hpc] at hlo
    cases hlo

/-- Settles O25: the write leaves PC, so that the fetch reads the two bytes of the block. -/
theorem fetchSeesStores : Obligations.FetchSeesStores := by
  intro s t hi lo hs hwrite
  have hpc : t.pc = s.pc := (congrArg State.pc (State.writeBytes_frame hwrite) :)
  have hread := State.memRead_of_writeBytes hs hwrite
  rw [← wordOfBytes_eq_ofNat]
  apply State.fetch_of_memRead
  · simp [hread, hpc]
  · simp [hread, hpc]

/-! ## Memory after a load -/

/-- R272. -/
theorem hostLoad_of_fits (s : State) {rom : List Byte} (hrom : rom.length ≤ maxRom) :
    hostLoad s rom = (s.loaded rom, none) := if_pos (decide_eq_true hrom)

/-- R271: the ROM from the load address up, the font and zeros elsewhere. -/
theorem memRead_hostLoad (s : State) {rom : List Byte} (hrom : rom.length ≤ maxRom) {a : Nat} (ha : a < memSize) :
    (hostLoad s rom).1.memRead a = some (if loadAddr ≤ a ∧ a < loadAddr + rom.length then rom.getD (a - loadAddr) 0
      else fontOrZero s.cfg.fontBase a) := by
  rw [hostLoad_of_fits s hrom, State.memRead_of_lt _ ha, ← initialByte_eq_fontOrZero]
  have hfits : loadAddr + rom.length ≤ memSize := Nat.add_le_add_left hrom loadAddr
  exact congrArg some (memGet_romCells s.cfg.fontBase rom loadAddr a hfits)

theorem memRead_hostLoad_reserved (s : State) {rom : List Byte} (hrom : rom.length ≤ maxRom) {a : Nat}
    (ha : a < loadAddr) : (hostLoad s rom).1.memRead a = some (fontOrZero s.cfg.fontBase a) := by
  rw [memRead_hostLoad s hrom (ha.trans (by decide)), if_neg (by omega)]

/-- R57. -/
theorem fontOrZero_glyph (fb : Nat) {d j : Nat} (hd : d < 16) (hj : j < 5) :
    fontOrZero fb (fb + 5 * d + j) = (glyphTable.getD d []).getD j 0 := by
  have hfont : fontBytes = 80 := rfl
  rw [fontOrZero, if_pos (by omega), show (fb + 5 * d + j - fb) / 5 = d by omega,
    show (fb + 5 * d + j - fb) % 5 = j by omega]

theorem Config.fontBase_le {c : Config} (h : c.wellFormed = true) : c.fontBase + fontBytes ≤ loadAddr := by
  obtain ⟨-, hfont⟩ := Bool.and_eq_true_iff.mp h
  exact of_decide_eq_true hfont

/-- Settles O22: the font lies inside the reserved region, where no ROM byte is copied. -/
theorem fontStandsInTheReservedRegion : Obligations.FontStandsInTheReservedRegion := by
  intro s rom hcfg hrom
  have hfont : s.cfg.fontBase + 80 ≤ loadAddr := Config.fontBase_le hcfg
  refine ⟨fun d j hd hj => ?_, fun a ha hout => ?_⟩
  · rw [memRead_hostLoad_reserved s hrom (by omega), fontOrZero_glyph _ hd hj]
  · rw [memRead_hostLoad_reserved s hrom ha, fontOrZero, if_neg hout]

/-! ## The canonical form along a step -/

/-- The canonical form speaks of the font base and the cells alone. -/
theorem MemCanonical.congr {s t : State} (hs : MemCanonical s) (hcfg : t.cfg = s.cfg) (hmem : t.mem = s.mem) :
    MemCanonical t := by
  simpa only [MemCanonical, hcfg, hmem] using hs

theorem MemCanonical.writeBytes {s t : State} {a : Nat} {bs : List Byte} (hs : MemCanonical s)
    (h : s.writeBytes a bs = some t) : MemCanonical t := State.writeBytes_memWf hs h

/-- R163. -/
theorem exec_ldBVx_writeBytes {x : Reg} {s t : State} (h : exec (.ldBVx x) s = .next t) :
    s.writeBytes s.indexAddr (decimalDigits (s.getV x)) = some t := by
  simp only [exec, execLdBVx] at h
  split at h
  · next hwrite => cases h; exact hwrite
  · cases h

/-- R164. -/
theorem exec_storeRegs_writeBytes {x : Reg} {s t : State} (h : exec (.storeRegs x) s = .next t) :
    ∃ u, s.writeBytes s.indexAddr (s.getVs (x.val + 1)) = some u ∧ t = u.bumpIndex x := by
  simp only [exec, execStoreRegs] at h
  split at h
  · next u hwrite => cases h; exact ⟨u, hwrite, rfl⟩
  · cases h

/-- R37: only FX33 and FX55 write memory, and each does so by one block write. -/
theorem MemCanonical.exec_next {i : Instr} {s t : State} (hs : MemCanonical s) (h : exec i s = .next t) :
    MemCanonical t := by
  by_cases hmem : t.mem = s.mem
  · exact hs.congr (exec_cfg h) hmem
  · obtain ⟨x, rfl⟩ | ⟨x, rfl⟩ := exec_writer_of_mem_ne h hmem
    · exact hs.writeBytes (exec_ldBVx_writeBytes h)
    · obtain ⟨u, hwrite, rfl⟩ := exec_storeRegs_writeBytes h
      have hframe := u.bumpIndex_frame x
      exact (hs.writeBytes hwrite).congr (congrArg State.cfg hframe :) (congrArg State.mem hframe :)

/-- Settles O26: entering the tick, advancing PC and counting the cycle leave memory, and executing keeps it
canonical. -/
theorem stepKeepsMemoryCanonical : Obligations.StepKeepsMemoryCanonical := by
  intro s t hs h
  obtain ⟨_, _, u, _, _, hexec, rfl⟩ := step_next h
  have htick := s.enterTick_frame
  have hbefore : MemCanonical s.enterTick.advance :=
    hs.congr (congrArg State.cfg htick :) (congrArg State.mem htick :)
  exact (hbefore.exec_next hexec).congr rfl rfl

end Sys2Proof.Machine
end

section
/-!
PROOFS. The encoding family, the opcode map: decode and encode agree both ways, and the words the map leaves out are
those of R75's table (spec/30_encoding.md R72..R77).
-/

namespace Sys2Proof

open Sys2Proof.Machine (nibble UnknownWord)

/-! ## Decoding what was encoded -/

/-- R72, R74. -/
theorem encode_fits_row : ∀ i : Instr, Laws.EncodeFitsRow.Statement i
  | .cls => Laws.EncodeFitsRow.cls
  | .ret => Laws.EncodeFitsRow.ret
  | .jp _ => Laws.EncodeFitsRow.jp _
  | .call _ => Laws.EncodeFitsRow.call _
  | .seImm _ _ => Laws.EncodeFitsRow.seImm _ _
  | .sneImm _ _ => Laws.EncodeFitsRow.sneImm _ _
  | .seReg _ _ => Laws.EncodeFitsRow.seReg _ _
  | .ldImm _ _ => Laws.EncodeFitsRow.ldImm _ _
  | .addImm _ _ => Laws.EncodeFitsRow.addImm _ _
  | .ldReg _ _ => Laws.EncodeFitsRow.ldReg _ _
  | .orReg _ _ => Laws.EncodeFitsRow.orReg _ _
  | .andReg _ _ => Laws.EncodeFitsRow.andReg _ _
  | .xorReg _ _ => Laws.EncodeFitsRow.xorReg _ _
  | .addReg _ _ => Laws.EncodeFitsRow.addReg _ _
  | .subReg _ _ => Laws.EncodeFitsRow.subReg _ _
  | .shr _ _ => Laws.EncodeFitsRow.shr _ _
  | .subn _ _ => Laws.EncodeFitsRow.subn _ _
  | .shl _ _ => Laws.EncodeFitsRow.shl _ _
  | .sneReg _ _ => Laws.EncodeFitsRow.sneReg _ _
  | .ldI _ => Laws.EncodeFitsRow.ldI _
  | .jpV0 _ => Laws.EncodeFitsRow.jpV0 _
  | .rnd _ _ => Laws.EncodeFitsRow.rnd _ _
  | .drw _ _ _ => Laws.EncodeFitsRow.drw _ _ _
  | .skp _ => Laws.EncodeFitsRow.skp _
  | .sknp _ => Laws.EncodeFitsRow.sknp _
  | .ldVxDt _ => Laws.EncodeFitsRow.ldVxDt _
  | .ldVxK _ => Laws.EncodeFitsRow.ldVxK _
  | .ldDtVx _ => Laws.EncodeFitsRow.ldDtVx _
  | .ldStVx _ => Laws.EncodeFitsRow.ldStVx _
  | .addIVx _ => Laws.EncodeFitsRow.addIVx _
  | .ldFVx _ => Laws.EncodeFitsRow.ldFVx _
  | .ldBVx _ => Laws.EncodeFitsRow.ldBVx _
  | .storeRegs _ => Laws.EncodeFitsRow.storeRegs _
  | .loadRegs _ => Laws.EncodeFitsRow.loadRegs _

theorem decode_encode (i : Instr) : decode (encode i) = .ok i := by
  obtain ⟨r, hr, hfits, hbuild⟩ := encode_fits_row i
  rw [decode_of_row hr hfits, hbuild]

/-- R53, R71. -/
theorem decodeBytes_high_low (w : Word) : decodeBytes [highByte w, lowByte w] = decode w :=
  congrArg decode (wordOfBytes_high_low w)

theorem tableWord_toNat (w : Word) : tableWord 16 w.toNat = w := by
  rw [tableWord, Nat.mod_eq_of_lt w.isLt, BitVec.ofNat_toNat, BitVec.setWidth_eq]

/-- Settles O1: each opcode fits its row, whose fields give the instruction back; its two bytes and its table word are
the same word. -/
theorem decodeAfterEncode : Obligations.DecodeAfterEncode := by
  intro i
  have hbytes : decodeBytes (encodeBytes i) = .ok i := (decodeBytes_high_low _).trans (decode_encode i)
  refine ⟨decode_encode i, hbytes, ?_⟩
  rw [encodeBytes] at hbytes
  rw [decodeTableWord, tableWord_toNat, hbytes]

/-- Settles O7: each sample is the opcode of its instruction. -/
theorem sampleOpcodesDecode : Obligations.SampleOpcodesDecode :=
  ⟨decode_encode .cls, decode_encode (.call 0x3A4), decode_encode (.shl 1 2), decode_encode (.ldBVx 2),
    decode_encode (.drw 1 2 5), decode_encode (.sknp 15), decode_encode (.rnd 3 0x0F)⟩

/-! ## What the fixed bits of a row say of a word's value -/

theorem toNat_and_FFFF (op : Word) : (op &&& 0xFFFF).toNat = op.toNat := congrArg BitVec.toNat BitVec.and_allOnes

theorem toNat_and_F000 (op : Word) : (op &&& 0xF000).toNat = 4096 * (op.toNat / 4096) := by
  have := op.isLt
  rw [and_top_nibble (a := op.toNat / 4096) (n := op.toNat % 4096) (by omega) (by omega) (by omega),
    toNat_ofNat_of_lt (by omega)]

theorem toNat_and_F00F (op : Word) : (op &&& 0xF00F).toNat = 4096 * (op.toNat / 4096) + op.toNat % 16 := by
  have := op.isLt
  rw [and_outer_nibbles (a := op.toNat / 4096) (b := op.toNat / 256 % 16) (c := op.toNat / 16 % 16) (d := op.toNat % 16)
    (by omega) (by omega) (by omega) (by omega) (by omega), toNat_ofNat_of_lt (by omega)]

theorem toNat_and_F0FF (op : Word) : (op &&& 0xF0FF).toNat = 4096 * (op.toNat / 4096) + op.toNat % 256 := by
  have := op.isLt
  rw [and_top_and_low (a := op.toNat / 4096) (b := op.toNat / 256 % 16) (c := op.toNat % 256)
    (by omega) (by omega) (by omega) (by omega), toNat_ofNat_of_lt (by omega)]

/-! ## Encoding what was decoded: each format of R72 makes a word again from its fixed bits and its fields -/

theorem word_of_fixed {op v : Word} (h : op &&& 0xFFFF = v) : v = op := h.symm.trans BitVec.and_allOnes

section
variable {op : Word} {v : Nat}

theorem wordNNN_fieldNNN (h : op &&& 0xF000 = BitVec.ofNat 16 v) : wordNNN v (fieldNNN op) = op := by
  have hfixed := congrArg BitVec.toNat h
  rw [toNat_and_F000, BitVec.toNat_ofNat] at hfixed
  apply BitVec.eq_of_toNat_eq
  rw [wordNNN, BitVec.toNat_ofNat, fieldNNN_toNat]
  omega

theorem wordXNN_fields (h : op &&& 0xF000 = BitVec.ofNat 16 v) : wordXNN v (fieldX op) (fieldNN op) = op := by
  have hfixed := congrArg BitVec.toNat h
  rw [toNat_and_F000, BitVec.toNat_ofNat] at hfixed
  apply BitVec.eq_of_toNat_eq
  rw [wordXNN, BitVec.toNat_ofNat, fieldX_val, fieldNN_toNat]
  omega

theorem wordXY_fields (h : op &&& 0xF00F = BitVec.ofNat 16 v) : wordXY v (fieldX op) (fieldY op) = op := by
  have hfixed := congrArg BitVec.toNat h
  rw [toNat_and_F00F, BitVec.toNat_ofNat] at hfixed
  apply BitVec.eq_of_toNat_eq
  rw [wordXY, BitVec.toNat_ofNat, fieldX_val, fieldY_val]
  omega

theorem wordX_fieldX (h : op &&& 0xF0FF = BitVec.ofNat 16 v) : wordX v (fieldX op) = op := by
  have hfixed := congrArg BitVec.toNat h
  rw [toNat_and_F0FF, BitVec.toNat_ofNat] at hfixed
  apply BitVec.eq_of_toNat_eq
  rw [wordX, BitVec.toNat_ofNat, fieldX_val]
  omega

end

theorem encode_drw_fields {op : Word} (h : op &&& 0xF000 = 0xD000) :
    encode (.drw (fieldX op) (fieldY op) (fieldN op)) = op := by
  have hfixed : 4096 * (op.toNat / 4096) = 0xD000 := by rw [← toNat_and_F000, h]; rfl
  apply BitVec.eq_of_toNat_eq
  rw [encode, BitVec.toNat_ofNat, fieldX_val, fieldY_val, fieldN_toNat]
  omega

/-- The instruction that a row gives a word it fits has that word as its opcode. -/
def Row.Lossless (r : Row) : Prop := ∀ op : Word, op &&& r.mask = r.value → encode (r.build op) = op

theorem rowsLow_lossless : ∀ r ∈ rowsLow, r.Lossless := by
  simp only [rowsLow, List.forall_mem_cons]
  exact ⟨fun _ => word_of_fixed, fun _ => word_of_fixed, fun _ => wordNNN_fieldNNN, fun _ => wordNNN_fieldNNN,
    fun _ => wordXNN_fields, fun _ => wordXNN_fields, fun _ => wordXY_fields, fun _ => wordXNN_fields,
    fun _ => wordXNN_fields, List.forall_mem_nil _⟩

theorem rowsArith_lossless : ∀ r ∈ rowsArith, r.Lossless := by
  simp only [rowsArith, List.forall_mem_cons]
  exact ⟨fun _ => wordXY_fields, fun _ => wordXY_fields, fun _ => wordXY_fields, fun _ => wordXY_fields,
    fun _ => wordXY_fields, fun _ => wordXY_fields, fun _ => wordXY_fields, fun _ => wordXY_fields,
    fun _ => wordXY_fields, List.forall_mem_nil _⟩

theorem rowsHigh_lossless : ∀ r ∈ rowsHigh, r.Lossless := by
  simp only [rowsHigh, List.forall_mem_cons]
  exact ⟨fun _ => wordXY_fields, fun _ => wordNNN_fieldNNN, fun _ => wordNNN_fieldNNN, fun _ => wordXNN_fields,
    fun _ => encode_drw_fields, fun _ => wordX_fieldX, fun _ => wordX_fieldX, List.forall_mem_nil _⟩

theorem rowsMisc_lossless : ∀ r ∈ rowsMisc, r.Lossless := by
  simp only [rowsMisc, List.forall_mem_cons]
  exact ⟨fun _ => wordX_fieldX, fun _ => wordX_fieldX, fun _ => wordX_fieldX, fun _ => wordX_fieldX,
    fun _ => wordX_fieldX, fun _ => wordX_fieldX, fun _ => wordX_fieldX, fun _ => wordX_fieldX, fun _ => wordX_fieldX,
    List.forall_mem_nil _⟩

theorem opcodeRows_lossless : ∀ r ∈ opcodeRows, r.Lossless := by
  simp only [opcodeRows, List.forall_mem_append]
  exact ⟨⟨⟨rowsLow_lossless, rowsArith_lossless⟩, rowsHigh_lossless⟩, rowsMisc_lossless⟩

/-- Settles O2: a word that decodes fits a row, and each row's opcodes keep every bit of the word. -/
theorem encodeAfterDecode : Obligations.EncodeAfterDecode := by
  intro op i h
  obtain ⟨r, hr, hfits, rfl⟩ := decode_ok h
  exact opcodeRows_lossless r hr op hfits

/-- Settles O3: the search of the map finds the one row a word fits. -/
theorem opcodeMapIsUnambiguous : Obligations.OpcodeMapIsUnambiguous := by
  refine ⟨rfl, fun r hr q hq op hop hop' => ?_, fun r hr op => decode_of_row hr⟩
  have hsame : some r = some q :=
    (find_of_pairwise opcodeRows_apart hr hop).symm.trans (find_of_pairwise opcodeRows_apart hq hop')
  rw [Option.some.inj hsame]

/-! ## The words that fit no row (R75) -/

theorem nibble_zero (op : Word) : nibble 0 op = op.toNat % 16 := by simp [nibble]

theorem nibble_three (op : Word) : nibble 3 op = op.toNat / 4096 := by
  have := op.isLt
  exact Nat.mod_eq_of_lt (by omega)

/-- Some row of a part of the map fits a word. -/
def SomeFits (rows : List Row) (op : Word) : Prop := ∃ r ∈ rows, op &&& r.mask = r.value

theorem decode_error_iff (op : Word) : decode op = .error (.unknownOpcode op) ↔ ¬SomeFits opcodeRows op := by
  refine ⟨fun h ⟨r, hr, hfits⟩ => (decode_error h).2 r hr hfits, fun hnone => ?_⟩
  cases hd : decode op with
  | ok i =>
    obtain ⟨r, hr, hfits, _⟩ := decode_ok hd
    exact absurd ⟨r, hr, hfits⟩ hnone
  | error e => rw [(decode_error hd).1]

section
variable (op : Word)

theorem someFits_nil : ¬SomeFits [] op := fun ⟨_, hr, _⟩ => List.not_mem_nil hr

theorem someFits_cons (r : Row) (rows : List Row) :
    SomeFits (r :: rows) op ↔ (op &&& r.mask).toNat = r.value.toNat ∨ SomeFits rows op := by
  rw [BitVec.toNat_inj]
  simp [SomeFits]

theorem someFits_append (rows rows' : List Row) :
    SomeFits (rows ++ rows') op ↔ SomeFits rows op ∨ SomeFits rows' op := by
  simp [SomeFits, or_and_right, exists_or]

theorem someFits_rowsLow_iff : SomeFits rowsLow op ↔ (nibble 3 op = 0x0 ∧ (op = 0x00E0 ∨ op = 0x00EE)) ∨
    nibble 3 op ∈ [0x1, 0x2, 0x3, 0x4, 0x6, 0x7] ∨ (nibble 3 op = 0x5 ∧ nibble 0 op = 0) := by
  simp only [rowsLow, someFits_cons, someFits_nil, toNat_and_FFFF, toNat_and_F000, toNat_and_F00F, nibble_zero,
    nibble_three, ← BitVec.toNat_inj, BitVec.reduceToNat, List.mem_cons, List.not_mem_nil, or_false]
  omega

theorem someFits_rowsArith_iff : SomeFits rowsArith op ↔
    nibble 3 op = 0x8 ∧ nibble 0 op ∈ [0x0, 0x1, 0x2, 0x3, 0x4, 0x5, 0x6, 0x7, 0xE] := by
  simp only [rowsArith, someFits_cons, someFits_nil, toNat_and_F00F, nibble_zero, nibble_three, BitVec.reduceToNat,
    List.mem_cons, List.not_mem_nil, or_false]
  omega

theorem someFits_rowsHigh_iff : SomeFits rowsHigh op ↔ (nibble 3 op = 0x9 ∧ nibble 0 op = 0) ∨
    nibble 3 op ∈ [0xA, 0xB, 0xC, 0xD] ∨ (nibble 3 op = 0xE ∧ op.toNat % 256 ∈ [0x9E, 0xA1]) := by
  simp only [rowsHigh, someFits_cons, someFits_nil, toNat_and_F000, toNat_and_F00F, toNat_and_F0FF, nibble_zero,
    nibble_three, BitVec.reduceToNat, List.mem_cons, List.not_mem_nil, or_false]
  omega

theorem someFits_rowsMisc_iff : SomeFits rowsMisc op ↔
    nibble 3 op = 0xF ∧ op.toNat % 256 ∈ [0x07, 0x0A, 0x15, 0x18, 0x1E, 0x29, 0x33, 0x55, 0x65] := by
  simp only [rowsMisc, someFits_cons, someFits_nil, toNat_and_F0FF, nibble_three, BitVec.reduceToNat,
    List.mem_cons, List.not_mem_nil, or_false]
  omega

/-- R75's table has, under each top nibble, the words that the rows with that top nibble leave out. -/
theorem unknownWord_iff_decode_error : UnknownWord op ↔ decode op = .error (.unknownOpcode op) := by
  have htop : nibble 3 op < 16 := Nat.mod_lt _ (by decide)
  have hlow : nibble 0 op < 16 := Nat.mod_lt _ (by decide)
  have harith : nibble 0 op ∈ [0x8, 0x9, 0xA, 0xB, 0xC, 0xD, 0xF] ↔
      nibble 0 op ∉ [0x0, 0x1, 0x2, 0x3, 0x4, 0x5, 0x6, 0x7, 0xE] := by
    simp only [List.mem_cons, List.not_mem_nil, or_false]
    omega
  rw [decode_error_iff, opcodeRows, someFits_append, someFits_append, someFits_append, someFits_rowsLow_iff,
    someFits_rowsArith_iff, someFits_rowsHigh_iff, someFits_rowsMisc_iff, UnknownWord, harith]
  interval_cases nibble 3 op <;> simp

end

end Sys2Proof
end

section
/-!
PROOFS. The encoding family, the cycle: fetch, decode and dispatch, the faults of unknown opcodes, precise faults, and
the bound of PC (spec/30_encoding.md R71..R82, spec/60_exceptions.md R231..R237, spec/10_state.md R26).
-/

namespace Sys2Proof.Machine

/-! ## The cycle, by what it fetches and decodes -/

section
variable {s : State} {op : Word}

theorem cycle_of_fetch_none (hfetch : s.fetch = none) : cycle s = .fault (.outOfBoundsAddress s.pc) := by
  rw [cycle, hfetch]
  rfl

theorem cycle_of_decode_ok {i : Instr} (hfetch : s.fetch = some op) (hdecode : decode op = .ok i) :
    cycle s = exec i s.advance := by
  simp only [cycle, hfetch, hdecode]

theorem cycle_of_decode_error {e : Reject} (hfetch : s.fetch = some op) (hdecode : decode op = .error e) :
    cycle s = .fault (.unknownOpcode s.pc) := by
  simp only [cycle, hfetch, hdecode, decodeFault, raise_eq, State.advance_pc0]

theorem cycle_of_unknownWord (hfetch : s.fetch = some op) (hop : UnknownWord op) :
    cycle s = .fault (.unknownOpcode s.pc) :=
  cycle_of_decode_error hfetch ((unknownWord_iff_decode_error op).mp hop)

end

theorem State.fetch_none_of_le {s : State} (h : memSize ≤ s.pc.toNat + 1) : s.fetch = none := by
  obtain ⟨hpc, -⟩ | ⟨-, hfetch⟩ := s.fetch_spec
  · omega
  · exact hfetch

theorem State.lt_of_fetch_some {s : State} {op : Word} (h : s.fetch = some op) : s.pc.toNat + 1 < memSize := by
  by_contra hpc
  rw [State.fetch_none_of_le (not_lt.mp hpc)] at h
  cases h

theorem State.advance_eq_ofNat (s : State) : s.advance = s.withPc (BitVec.ofNat 16 (s.pc.toNat + 2)) := by
  rw [State.advance, BitVec.ofNat_add, BitVec.ofNat_toNat, BitVec.setWidth_eq]
  rfl

/-- Settles O9: a fetch has a word exactly where both its bytes exist, and the word decodes or it does not. -/
theorem cycleFetchesAdvancesDispatches : Obligations.CycleFetchesAdvancesDispatches := by
  intro s
  refine ⟨fun hpc => cycle_of_fetch_none (State.fetch_none_of_le hpc), fun hi lo hhi hlo => ?_⟩
  have hfetch := State.fetch_of_memRead hhi hlo
  rw [wordOfBytes_eq_ofNat] at hfetch
  refine ⟨fun i hdecode => ?_, fun e hdecode => cycle_of_decode_error hfetch hdecode⟩
  rw [cycle_of_decode_ok hfetch hdecode, State.advance_eq_ofNat]

theorem endCycle_eq_mapNext (o : Host.Outcome State Fault Refusal) :
    endCycle o = mapNext (fun t => t.withCyclesLeft (t.cyclesLeft - 1)) o := by
  cases o <;> rfl

/-- Settles O8: entering the tick changes no byte that the cycle fetches. -/
theorem stepRunsTheDecodedInstruction : Obligations.StepRunsTheDecodedInstruction := by
  intro s hi lo i hhi hlo hdecode
  have hfetch : s.enterTick.fetch = some (wordOfBytes hi lo) :=
    s.enterTick_fetch.trans (State.fetch_of_memRead hhi hlo)
  have hstep : step s = mapNext (fun t => t.withCyclesLeft (t.cyclesLeft - 1)) (exec i s.enterTick.advance) := by
    rw [step, cycle_of_decode_ok hfetch hdecode, endCycle_eq_mapNext]
  refine ⟨fun hinside => ?_, fun hbetween => ?_⟩
  · rw [hstep, State.enterTick_of_ne_zero hinside, State.advance]
  · rw [hstep, State.enterTick_of_zero hbetween]
    rfl

/-! ## Unknown opcodes -/

/-- Settles O4: the words of R75's table are those that no row fits. -/
theorem unknownOpcodesAreThoseListed : Obligations.UnknownOpcodesAreThoseListed := by
  refine ⟨unknownWord_iff_decode_error, fun op hknown => ?_, fun s op => cycle_of_unknownWord⟩
  cases hdecode : decode op with
  | ok i => exact ⟨i, rfl⟩
  | error e =>
    rw [(decode_error hdecode).1, ← unknownWord_iff_decode_error] at hdecode
    exact absurd hdecode hknown

/-- R76. -/
theorem unknownWord_of_lt {op : Word} (hop : op.toNat < 0x1000) (hcls : op ≠ 0x00E0) (hret : op ≠ 0x00EE) :
    UnknownWord op :=
  .inl ⟨by rw [nibble_three]; omega, hcls, hret⟩

/-- R75: the words of the top nibble F whose low byte is none of the nine listed. -/
theorem unknownWord_wordX_F {c : Nat} (hc : c < 256)
    (hout : c ∉ [0x07, 0x0A, 0x15, 0x18, 0x1E, 0x29, 0x33, 0x55, 0x65]) (x : Reg) :
    UnknownWord (wordX (4096 * 15 + c) x) := by
  have hx := x.isLt
  have hword := wordX_toNat (a := 15) (by decide) hc x
  have htop : nibble 3 (wordX (4096 * 15 + c) x) = 15 := by rw [nibble_three]; omega
  have hlow : (wordX (4096 * 15 + c) x).toNat % 256 = c := by omega
  rw [← hlow] at hout
  exact .inr (.inr (.inr (.inr (.inr ⟨htop, hout⟩))))

/-- R77. -/
theorem unknownWord_superChip {op : Word} (h : op.toNat / 16 = 0x00C ∨ op ∈ [0x00FB, 0x00FC, 0x00FD, 0x00FE, 0x00FF] ∨
    ∃ x : Reg, op ∈ [wordX 0xF030 x, wordX 0xF075 x, wordX 0xF085 x]) : UnknownWord op := by
  obtain hscroll | hsystem | ⟨x, hmisc⟩ := h
  · have hne : ∀ w : Word, w.toNat / 16 ≠ 0x00C → op ≠ w := fun w hw heq => hw (heq ▸ hscroll)
    exact unknownWord_of_lt (by omega) (hne _ (by decide)) (hne _ (by decide))
  · simp only [List.mem_cons, List.not_mem_nil, or_false] at hsystem
    obtain rfl | rfl | rfl | rfl | rfl := hsystem <;> exact unknownWord_of_lt (by decide) (by decide) (by decide)
  · simp only [List.mem_cons, List.not_mem_nil, or_false] at hmisc
    obtain rfl | rfl | rfl := hmisc
    · exact unknownWord_wordX_F (c := 0x30) (by decide) (by decide) x
    · exact unknownWord_wordX_F (c := 0x75) (by decide) (by decide) x
    · exact unknownWord_wordX_F (c := 0x85) (by decide) (by decide) x

/-- Settles O5: all these words stand in R75's table, and DXY0 is the opcode of `DRW VX, VY, 0`. -/
theorem machineCodeAndSuperChipAreUnknown : Obligations.MachineCodeAndSuperChipAreUnknown :=
  ⟨fun _ _ hfetch hlt hcls hret => cycle_of_unknownWord hfetch (unknownWord_of_lt hlt hcls hret),
    fun _ _ hfetch h => cycle_of_unknownWord hfetch (unknownWord_superChip h),
    fun x y => decode_encode (.drw x y 0)⟩

/-! ## The cycles of a tick -/

section
variable {s t : State}

theorem runCycles_succ_of_next (n : Nat) (h : cycle s = .next t) : runCycles (n + 1) s = runCycles n t := by
  rw [runCycles, h]

theorem runCycles_succ_of_fault (n : Nat) {f : Fault} (h : cycle s = .fault f) :
    runCycles (n + 1) s = (s, .fault f) := by
  rw [runCycles, h, State.advance_afterFault]

theorem runCycles_succ_of_refused (n : Nat) {r : Refusal} (h : cycle s = .refused r) :
    runCycles (n + 1) s = (s, .refused r) := by
  rw [runCycles, h]

end

/-- Settles O6: the word fits no row, and the timer decrement leaves PC and the word there. -/
theorem tickStopsAtFFFF : Obligations.TickStopsAtFFFF := by
  have hdecode : decode 0xFFFF = .error (.unknownOpcode 0xFFFF) := rfl
  refine ⟨hdecode, fun s hfetch hbudget => ?_⟩
  have hcycle : cycle s.timerDecrement = .fault (.unknownOpcode s.pc) :=
    cycle_of_decode_error ((State.fetch_congr rfl rfl rfl).trans hfetch) hdecode
  obtain ⟨n, hn⟩ : ∃ n, s.cfg.cyclesPerTick = n + 1 := Nat.exists_eq_add_of_le' hbudget
  rw [hostTick, hn, runCycles_succ_of_fault n hcycle]
  exact ⟨rfl, rfl⟩

/-! ## Precise faults -/

/-- R231: an instruction's fault names the address it was fetched from. -/
theorem faultPc_of_exec {i : Instr} {s : State} {f : Fault} (h : exec i s = .fault f) : faultPc f = s.pc0 := by
  cases i
  case ret | call | jpV0 | drw | ldBVx | storeRegs | loadRegs =>
    simp only [exec, execRet, execCall, execJpV0, execDrw, execLdBVx, execStoreRegs, execLoadRegs] at h
    split at h <;> cases h
    rfl
  case ldVxK =>
    simp only [exec, execLdVxK] at h
    split at h <;> cases h
  all_goals cases h

/-- R231. -/
theorem faultPc_of_cycle {s : State} {f : Fault} (h : cycle s = .fault f) : faultPc f = s.pc := by
  obtain ⟨-, hcycle⟩ | ⟨op, -, ⟨e, -, hcycle⟩ | ⟨i, -, hcycle⟩⟩ := cycle_cases s <;> rw [hcycle] at h
  · cases h; rfl
  · cases h; rfl
  · exact (faultPc_of_exec h).trans s.advance_pc0

/-- R82, R234: cycles that end in a fault leave what those before the faulting one made. -/
theorem runCycles_fault {n : Nat} {s : State} {f : Fault} (h : (runCycles n s).2 = .fault f) :
    ∃ k, k < n ∧ runCycles k s = ((runCycles n s).1, .next ()) ∧ cycle (runCycles n s).1 = .fault f := by
  induction n generalizing s with
  | zero => cases h
  | succ n ih =>
    cases hcycle : cycle s with
    | next t =>
      rw [runCycles_succ_of_next n hcycle] at h ⊢
      obtain ⟨k, hk, hrun, hfault⟩ := ih h
      exact ⟨k + 1, Nat.succ_lt_succ hk, (runCycles_succ_of_next k hcycle).trans hrun, hfault⟩
    | fault g =>
      rw [runCycles_succ_of_fault n hcycle] at h ⊢
      cases h
      exact ⟨0, Nat.succ_pos n, rfl, hcycle⟩
    | refused r =>
      rw [runCycles_succ_of_refused n hcycle] at h
      cases h

/-- Settles O11: a tick is its cycles after the timer decrement. -/
theorem faultsArePrecise : Obligations.FaultsArePrecise := by
  intro s f h
  obtain ⟨k, hk, hrun, hfault⟩ := runCycles_fault h
  exact ⟨k, hk, hrun, hfault, faultPc_of_cycle hfault⟩

/-! ## The bound of PC -/

/-- R26: every return address held is at most 0x1000. -/
def ReturnsBounded (s : State) : Prop := ∀ k : Fin 16, k.val < s.sp.val → s.stack[k].toNat ≤ 0x1000

theorem pcBounded_iff (s : State) : PcBounded s ↔ s.pc.toNat ≤ 0x1002 ∧ ReturnsBounded s := Iff.rfl

theorem ReturnsBounded.congr {s t : State} (hs : ReturnsBounded s) (hsp : t.sp = s.sp) (hstack : t.stack = s.stack) :
    ReturnsBounded t := by
  simpa only [ReturnsBounded, hsp, hstack] using hs

section
variable {s t : State}

/-- R100: the popped entry is one of those held. -/
theorem exec_ret_pops (h : exec .ret s = .next t) :
    t.stack = s.stack ∧ ∃ k : Fin 16, s.sp.val = k.val + 1 ∧ t.sp.val = k.val ∧ t.pc = s.stack[k] := by
  obtain ⟨hk, hpos, hpop⟩ | ⟨-, hpop⟩ := s.pop_spec <;> simp only [exec, execRet, hpop] at h
  · cases h
    exact ⟨rfl, ⟨s.sp.val - 1, hk⟩, (Nat.sub_add_cancel hpos).symm, rfl, rfl⟩
  · cases h

/-- R102: the value pushed is PC. -/
theorem exec_call_pushes {nnn : Addr12} (h : exec (.call nnn) s = .next t) :
    t.pc = nnn.setWidth 16 ∧ ∃ k : Fin 16, s.sp.val = k.val ∧ t.sp.val = k.val + 1 ∧ t.stack = s.stack.set k s.pc := by
  obtain ⟨hk, hpush⟩ | ⟨-, hpush⟩ := s.push_spec s.pc <;> simp only [exec, execCall, hpush] at h
  · cases h
    exact ⟨rfl, ⟨s.sp.val, hk⟩, rfl, rfl, rfl⟩
  · cases h

/-- R107. -/
theorem exec_jpV0_pc_lt {nnn : Addr12} (h : exec (.jpV0 nnn) s = .next t) : t.pc.toNat < memSize := by
  simp only [exec, execJpV0] at h
  split at h
  · next htarget =>
    cases h
    rwa [State.withPc_pc, toNat_ofNat_of_lt (htarget.trans (by decide))]
  · cases h

/-- R108. -/
theorem skipIf_next_pc {c : Bool} (h : skipIf c s = .next t) : t.pc = s.pc ∨ t.pc = s.pc + 2 := by
  cases c <;> cases h
  · exact .inl rfl
  · exact .inr rfl

/-- R215. -/
theorem exec_ldVxK_next_pc {x : Reg} (h : exec (.ldVxK x) s = .next t) : t.pc = s.pc ∨ t.pc = s.pc0 := by
  obtain ⟨_, rfl⟩ | rfl := exec_ldVxK_next h
  · exact .inl rfl
  · exact .inr rfl

theorem toNat_setWidth_addr_lt (nnn : Addr12) : (nnn.setWidth 16).toNat < memSize := by
  rw [BitVec.toNat_setWidth_of_le (by decide)]
  exact nnn.isLt

theorem toNat_add_two {w : Word} (h : w.toNat + 2 < 65536) : (w + 2).toNat = w.toNat + 2 := by
  rw [BitVec.toNat_add, show (2 : Word).toNat = 2 from rfl, Nat.mod_eq_of_lt h]

/-- R26: PC stays, skips, goes back to the instruction, jumps inside memory or returns to an address held. -/
theorem exec_pc_cases {i : Instr} (h : exec i s = .next t) :
    t.pc = s.pc ∨ t.pc = s.pc + 2 ∨ t.pc = s.pc0 ∨ t.pc.toNat < memSize ∨
      ∃ k : Fin 16, k.val < s.sp.val ∧ t.pc = s.stack[k] := by
  have hframe := exec_differsInWritten h
  cases i
  case ret =>
    obtain ⟨-, k, hsp, -, hret⟩ := exec_ret_pops h
    exact .inr (.inr (.inr (.inr ⟨k, by omega, hret⟩)))
  case jp nnn => cases h; exact .inr (.inr (.inr (.inl (toNat_setWidth_addr_lt nnn))))
  case call nnn =>
    obtain ⟨hcall, -⟩ := exec_call_pushes h
    exact .inr (.inr (.inr (.inl (hcall ▸ toNat_setWidth_addr_lt nnn))))
  case jpV0 => exact .inr (.inr (.inr (.inl (exec_jpV0_pc_lt h))))
  case seImm | sneImm | seReg | sneReg | skp | sknp => exact (skipIf_next_pc h).imp_right .inl
  case ldVxK => exact (exec_ldVxK_next_pc h).imp_right fun hwait => .inr (.inl hwait)
  all_goals exact .inl (congrArg State.pc hframe :)

theorem ReturnsBounded.exec_next {i : Instr} (hs : ReturnsBounded s) (hpc : s.pc.toNat ≤ 0x1000)
    (h : exec i s = .next t) : ReturnsBounded t := by
  by_cases hsame : t.sp = s.sp ∧ t.stack = s.stack
  · exact hs.congr hsame.1 hsame.2
  · obtain rfl | ⟨nnn, rfl⟩ := exec_writer_of_stack_ne h (not_and_or.mp hsame)
    · obtain ⟨hstack, k, hsp, hsp', -⟩ := exec_ret_pops h
      intro j hj
      rw [hstack]
      exact hs j (by omega)
    · obtain ⟨-, k, hsp, hsp', hstack⟩ := exec_call_pushes h
      intro j hj
      simp only [hstack, Fin.getElem_fin, Vector.getElem_set]
      split
      · exact hpc
      · exact hs j (by omega)

end

/-- Settles O27: the fetch shows PC to be below 0xFFF, so that it is at most 0x1000 when the instruction runs. -/
theorem stepKeepsPcBounded : Obligations.StepKeepsPcBounded := by
  intro s t hs h
  obtain ⟨-, hreturns⟩ := (pcBounded_iff s).mp hs
  obtain ⟨op, i, u, hfetch, -, hexec, rfl⟩ := step_next h
  have hpc : s.pc.toNat + 1 < 4096 := State.lt_of_fetch_some hfetch
  have htick := s.enterTick_frame
  have hpc0 : s.enterTick.advance.pc0 = s.pc := s.enterTick.advance_pc0.trans (congrArg State.pc htick :)
  have hpc2 : s.enterTick.advance.pc.toNat = s.pc.toNat + 2 := by
    have hadvance : s.enterTick.advance.pc = s.pc + 2 := (congrArg (State.pc ·.advance) htick :)
    rw [hadvance, toNat_add_two (by omega)]
  have hbefore : ReturnsBounded s.enterTick.advance :=
    hreturns.congr (congrArg State.sp htick :) (congrArg State.stack htick :)
  have hafter : ReturnsBounded u := hbefore.exec_next (by omega) hexec
  refine (pcBounded_iff _).mpr ⟨?_, hafter⟩
  show u.pc.toNat ≤ 0x1002
  obtain heq | heq | heq | hlt | ⟨k, hk, heq⟩ := exec_pc_cases hexec
  · rw [heq]; omega
  · rw [heq, toNat_add_two (by omega)]; omega
  · rw [heq, hpc0]; omega
  · exact hlt.le.trans (by decide)
  · rw [heq]; exact (hbefore k hk).trans (by decide)

end Sys2Proof.Machine
end

section
/-!
PROOFS. The control flow family: calls and returns, jumps, skips, and the parked Machine
(spec/40_control_flow.md R100..R108, spec/70_reset_and_hazards.md R281).
-/

namespace Sys2Proof.Machine

/-! ## Encodings and frames -/

/-- R74. -/
theorem encodedAs_of_mem {mask value : Word} {mk : Word → Instr} (hrow : ⟨mask, value, mk⟩ ∈ opcodeRows) :
    EncodedAs mask value mk := fun _ => decode_of_row hrow

theorem onlyPc_withPc (s : State) (w : Word) : OnlyPc s (s.withPc w) := ⟨rfl, fun _ => rfl⟩

/-- An instruction that goes on and leaves the cells leaves every byte of memory. -/
theorem memSame_of_exec {i : Instr} {s t : State} (h : exec i s = .next t) (hmem : t.mem = s.mem) : MemSame s t :=
  State.memRead_congr (exec_cfg h) hmem

/-! ## Calls and returns -/

section
variable {s : State}

/-- R100. -/
theorem exec_ret_of_pos (h : 0 < s.sp.val) : ∃ t, exec .ret s = .next t := by
  obtain ⟨_, _, hpop⟩ | ⟨hempty, -⟩ := s.pop_spec
  · simp [exec, execRet, hpop]
  · omega

/-- R100. -/
theorem exec_ret_of_empty (h : s.sp.val = 0) : exec .ret s = .fault (.stackUnderflow s.pc0) := by
  obtain ⟨_, hpos, -⟩ | ⟨-, hpop⟩ := s.pop_spec
  · omega
  · simp only [exec, execRet, hpop, raise_eq]

/-- R102. -/
theorem exec_call_of_lt (nnn : Addr12) (h : s.sp.val < 16) : ∃ t, exec (.call nnn) s = .next t := by
  obtain ⟨_, hpush⟩ | ⟨hfull, -⟩ := s.push_spec s.pc
  · simp [exec, execCall, hpush]
  · omega

/-- R102. -/
theorem exec_call_of_full (nnn : Addr12) (h : s.sp.val = 16) :
    exec (.call nnn) s = .fault (.stackOverflow s.pc0) := by
  obtain ⟨hlt, -⟩ | ⟨-, hpush⟩ := s.push_spec s.pc
  · omega
  · simp only [exec, execCall, hpush, raise_eq]

end

/-- Settles O35: SP says whether `RET` goes on, and where it does it has popped the entry below SP. -/
theorem returnPopsTheStack : Obligations.ReturnPopsTheStack := by
  refine ⟨encodedAs_of_mem (by simp [opcodeRows, rowsLow]), fun s k hsp => ?_,
    fun s hsp => exec_ret_of_empty (congrArg Fin.val hsp)⟩
  obtain ⟨t, h⟩ := exec_ret_of_pos (s := s) (by omega)
  have hframe : t = (s.withStack t.sp t.stack).withPc t.pc := exec_differsInWritten h
  obtain ⟨hstack, j, hspj, hspt, hpc⟩ := exec_ret_pops h
  obtain rfl : j = k := Fin.ext (by omega)
  exact ⟨t, h, hpc, hspt, hstack, hframe, memSame_of_exec h (congrArg State.mem hframe :)⟩

/-- Settles O37: SP says whether `CALL` goes on, and where it does it has written the entry at SP alone. -/
theorem callPushesTheReturnAddress : Obligations.CallPushesTheReturnAddress := by
  refine ⟨encodedAs_of_mem (by simp [opcodeRows, rowsLow]), fun s nnn k hsp => ?_,
    fun s nnn hsp => exec_call_of_full nnn hsp⟩
  obtain ⟨t, h⟩ := exec_call_of_lt nnn (hsp.trans_lt k.isLt)
  have hframe : t = (s.withStack t.sp t.stack).withPc t.pc := exec_differsInWritten h
  obtain ⟨hpc, j, hspj, hspt, hstack⟩ := exec_call_pushes h
  obtain rfl : j = k := Fin.ext (by omega)
  refine ⟨t, h, ?_, hspt, fun i => ?_, hframe, memSame_of_exec h (congrArg State.mem hframe :)⟩
  · rw [hpc, BitVec.toNat_setWidth_of_le (by decide)]
  · simp [hstack, Vector.getElem_set, Fin.ext_iff, eq_comm]

/-! ## Jumps -/

/-- Settles O36. -/
theorem jumpSetsPc : Obligations.JumpSetsPc :=
  ⟨encodedAs_of_mem (by simp [opcodeRows, rowsLow]),
    fun s nnn => ⟨_, rfl, BitVec.toNat_setWidth_of_le (by decide), onlyPc_withPc s _⟩⟩

/-- R107: the register number is V0's, or NNN[11:8]. -/
theorem State.jumpRegister_val (s : State) (nnn : Addr12) :
    (s.jumpRegister nnn).val = if s.cfg.jumpVx then nnn.toNat / 256 else 0 := by
  have hnnn := nnn.isLt
  unfold State.jumpRegister
  split
  · rw [Fin.val_mk, BitVec.extractLsb'_toNat, Nat.shiftRight_eq_div_pow]
    omega
  · rfl

section
variable {s : State} {nnn : Addr12}

/-- R107. -/
theorem exec_jpV0_of_lt (h : s.jumpTarget nnn < memSize) :
    exec (.jpV0 nnn) s = .next (s.withPc (BitVec.ofNat 16 (s.jumpTarget nnn))) := if_pos h

/-- R107: the jump itself faults. -/
theorem exec_jpV0_of_le (h : memSize ≤ s.jumpTarget nnn) :
    exec (.jpV0 nnn) s = .fault (.outOfBoundsAddress s.pc0) := if_neg (not_lt.mpr h)

end

/-- Settles O40: the register of the statement is the one the instruction adds, so that the sum is its target. -/
theorem jumpWithOffset : Obligations.JumpWithOffset := by
  refine ⟨encodedAs_of_mem (by simp [opcodeRows, rowsHigh]), fun s nnn r hr => ?_⟩
  obtain rfl : s.jumpRegister nnn = r := Fin.ext ((s.jumpRegister_val nnn).trans hr.symm)
  exact ⟨fun hlt => ⟨_, exec_jpV0_of_lt hlt, toNat_ofNat_of_lt (hlt.trans (by decide)), onlyPc_withPc s _⟩,
    exec_jpV0_of_le⟩

/-! ## Skips -/

/-- R108. -/
theorem skipIf_eq (c : Bool) (s : State) :
    skipIf c s = .next (s.withPc (if c then BitVec.ofNat 16 (s.pc.toNat + 2) else s.pc)) := by
  cases c
  · rfl
  · exact congrArg Host.Outcome.next s.advance_eq_ofNat

/-- R108: a skip on a test that decides `p`. -/
theorem skipIf_spec {c : Bool} {p : Prop} [Decidable p] (hc : c = true ↔ p) (s : State) :
    ∃ t, skipIf c s = .next t ∧ OnlyPc s t ∧ t.pc = if p then BitVec.ofNat 16 (s.pc.toNat + 2) else s.pc :=
  ⟨_, skipIf_eq c s, onlyPc_withPc s _, if_congr hc rfl rfl⟩

/-- Settles O38. -/
theorem skipsOnALiteral : Obligations.SkipsOnALiteral :=
  ⟨encodedAs_of_mem (by simp [opcodeRows, rowsLow]), encodedAs_of_mem (by simp [opcodeRows, rowsLow]),
    fun s _ _ => ⟨skipIf_spec beq_iff_eq s, skipIf_spec bne_iff_ne s⟩⟩

/-- Settles O39. -/
theorem skipsOnRegisters : Obligations.SkipsOnRegisters :=
  ⟨encodedAs_of_mem (by simp [opcodeRows, rowsLow]), encodedAs_of_mem (by simp [opcodeRows, rowsHigh]),
    fun s _ _ => ⟨skipIf_spec beq_iff_eq s, skipIf_spec bne_iff_ne s⟩⟩

/-! ## The parked Machine -/

/-- R281: the cycle of a parked Machine gives the same state again. -/
theorem Parked.cycle_eq {a : Addr12} {s : State} (h : Parked a s) : cycle s = .next s := by
  obtain ⟨hpc, hfetch⟩ := h
  have hjump : exec (.jp a) s.advance = .next (s.withPc (a.setWidth 16)) := rfl
  rw [cycle_of_decode_ok hfetch (decode_encode (.jp a)), hjump, ← hpc]
  rfl

theorem Parked.timerDecrement {a : Addr12} {s : State} (h : Parked a s) : Parked a s.timerDecrement := by
  obtain ⟨hpc, hfetch⟩ := h
  exact ⟨hpc, (State.fetch_congr rfl rfl rfl).trans hfetch⟩

theorem runCycles_of_cycle_fixed {s : State} (h : cycle s = .next s) (n : Nat) : runCycles n s = (s, .next ()) := by
  induction n with
  | zero => rfl
  | succ n ih => rw [runCycles_succ_of_next n h, ih]

/-- Settles O15: the timer decrement leaves the Machine parked, and each cycle after it changes nothing. -/
theorem parkedMachineStaysParked : Obligations.ParkedMachineStaysParked := by
  intro s a h
  have htick : hostTick s = (s.timerDecrement, .next ()) :=
    runCycles_of_cycle_fixed h.timerDecrement.cycle_eq s.cfg.cyclesPerTick
  exact ⟨htick, htick ▸ h.timerDecrement⟩

end Sys2Proof.Machine
end

section
/-!
PROOFS. The arithmetic family: loads, sums, logic, differences, shifts and the random draw, each with the flag it writes
last and the registers it leaves alone (spec/41_arithmetic.md R130..R143).
-/

namespace Sys2Proof.Machine

/-! ## A result and its flag -/

section
variable (s : State) (x : Reg) (b f : Byte)

theorem State.getV_setV_self : (s.setV x b).getV x = b := by simp

/-- R131: the flag, written last, stands in VF even where VF is the destination. -/
theorem State.getV_setVF_flag : (s.setVF x b f).getV regF = f := by simp

theorem State.getV_setVF_result {x : Reg} (hx : x ≠ regF) : (s.setVF x b f).getV x = b := by simp [hx]

theorem regsSameBut_setV : RegsSameBut [x] s (s.setV x b) := fun r hr => by
  rw [State.getV_setV, if_neg (List.ne_of_not_mem_cons hr)]

theorem onlyRegs_setV : OnlyRegs [x] s (s.setV x b) := ⟨regsSameBut_setV s x b, rfl, fun _ => rfl⟩

theorem onlyRegs_setVF : OnlyRegs [x, regF] s (s.setVF x b f) := by
  refine ⟨fun r hr => ?_, rfl, fun _ => rfl⟩
  obtain ⟨hx, hf⟩ := List.ne_and_not_mem_of_not_mem_cons hr
  rw [State.getV_setVF, if_neg (List.ne_of_not_mem_cons hf), if_neg hx]

/-- R131: what an instruction with a flag leaves, its result given as a number and its flag by what is asked of it. -/
theorem setVF_spec {x : Reg} {b f : Byte} {m : Nat} (hb : b.toNat = m) (Q : Byte → Prop) (hf : Q f) :
    (x ≠ regF → ((s.setVF x b f).getV x).toNat = m) ∧ Q ((s.setVF x b f).getV regF) ∧
      OnlyRegs [x, regF] s (s.setVF x b f) := by
  refine ⟨fun hx => ?_, ?_, onlyRegs_setVF s x b f⟩
  · rwa [State.getV_setVF_result s b f hx]
  · rwa [State.getV_setVF_flag]

end

/-! ## Byte arithmetic -/

theorem flagByte_decide (p : Prop) [Decidable p] : flagByte (decide p) = if p then 1 else 0 :=
  if_congr decide_eq_true_iff rfl rfl

theorem flagByte_toNat (b : Bool) : (flagByte b).toNat = b.toNat := by cases b <;> rfl

/-- R130: the difference as an exact integer that does not go below 0. -/
theorem byte_toNat_sub (a b : Byte) : (a - b).toNat = (256 + a.toNat - b.toNat) % 256 := by
  have hb := b.isLt
  rw [BitVec.toNat_sub]
  omega

/-- R140. -/
theorem byte_toNat_shiftRight_one (b : Byte) : (b >>> 1).toNat = b.toNat / 2 := by
  rw [BitVec.toNat_ushiftRight, Nat.shiftRight_one]

/-- R142. -/
theorem byte_toNat_shiftLeft_one (b : Byte) : (b <<< 1).toNat = 2 * b.toNat % 256 := by
  rw [BitVec.toNat_shiftLeft, Nat.shiftLeft_eq, mul_comm]

/-- R140: bit 0. -/
theorem shiftRightFlag_toNat (b : Byte) : (shiftRightFlag b).toNat = b.toNat % 2 := by
  rw [shiftRightFlag, flagByte_toNat, BitVec.getLsbD, Nat.toNat_testBit, pow_zero, Nat.div_one]

/-- R142: bit 7, the top bit of a byte. -/
theorem shiftLeftFlag_toNat (b : Byte) : (shiftLeftFlag b).toNat = b.toNat / 128 := by
  have hb := b.isLt
  rw [shiftLeftFlag, flagByte_toNat, BitVec.getLsbD, Nat.toNat_testBit]
  omega

theorem State.shiftOperand_eq (s : State) (x y : Reg) :
    s.shiftOperand x y = if s.cfg.shiftSource = .vy then s.getV y else s.getV x := by
  unfold State.shiftOperand
  cases s.cfg.shiftSource <;> rfl

/-! ## Loads and sums -/

/-- Settles O41. -/
theorem loadsIntoARegister : Obligations.LoadsIntoARegister :=
  ⟨encodedAs_of_mem (by simp [opcodeRows, rowsLow]), encodedAs_of_mem (by simp [opcodeRows, rowsArith]),
    fun s x nn => ⟨_, rfl, s.getV_setV_self x nn, onlyRegs_setV s x nn⟩,
    fun s x y => ⟨_, rfl, s.getV_setV_self x (s.getV y), onlyRegs_setV s x (s.getV y)⟩⟩

/-- Settles O42. -/
theorem addLiteralWraps : Obligations.AddLiteralWraps :=
  ⟨encodedAs_of_mem (by simp [opcodeRows, rowsLow]), fun s x nn =>
    ⟨_, rfl, by rw [State.getV_setV_self, BitVec.toNat_add], onlyRegs_setV s x _⟩⟩

/-- Settles O44. -/
theorem addWithCarry : Obligations.AddWithCarry :=
  ⟨encodedAs_of_mem (by simp [opcodeRows, rowsArith]), fun s _ _ =>
    ⟨_, rfl, setVF_spec s (BitVec.toNat_add _ _) (· = ite _ 1 0) (flagByte_decide _)⟩⟩

/-! ## Logic -/

/-- R135..R137, for each of the three results. -/
theorem logicResult_spec (s : State) (x : Reg) (b : Byte) :
    (s.cfg.logicVfReset = false → (logicResult x b s).getV x = b ∧ OnlyRegs [x] s (logicResult x b s)) ∧
    (s.cfg.logicVfReset = true → (logicResult x b s).getV regF = 0 ∧
      (x ≠ regF → (logicResult x b s).getV x = b) ∧ OnlyRegs [x, regF] s (logicResult x b s)) := by
  refine ⟨fun hoff => ?_, fun hon => ?_⟩
  · rw [logicResult, if_neg (by simp [hoff])]
    exact ⟨s.getV_setV_self x b, onlyRegs_setV s x b⟩
  · rw [logicResult, if_pos hon]
    exact ⟨s.getV_setVF_flag x b 0, s.getV_setVF_result b 0, onlyRegs_setVF s x b 0⟩

/-- Settles O43: the three operations differ only in the result they hand to `logicResult`. -/
theorem logicOperations : Obligations.LogicOperations := by
  refine ⟨encodedAs_of_mem (by simp [opcodeRows, rowsArith]), encodedAs_of_mem (by simp [opcodeRows, rowsArith]),
    encodedAs_of_mem (by simp [opcodeRows, rowsArith]),
    fun s x y p hp => ⟨logicResult x p.2 s, ?_, logicResult_spec s x p.2⟩⟩
  simp only [List.mem_cons, List.not_mem_nil, or_false] at hp
  obtain rfl | rfl | rfl := hp <;> rfl

/-! ## Differences -/

/-- R139, R141: a difference and its NOT borrow. -/
theorem setVF_sub_spec (s : State) (x : Reg) (a b : Byte) :
    (x ≠ regF → ((s.setVF x (a - b) (noBorrowFlag a b)).getV x).toNat = (256 + a.toNat - b.toNat) % 256) ∧
    (s.setVF x (a - b) (noBorrowFlag a b)).getV regF = (if a.toNat ≥ b.toNat then 1 else 0) ∧
    OnlyRegs [x, regF] s (s.setVF x (a - b) (noBorrowFlag a b)) :=
  setVF_spec s (byte_toNat_sub a b) (· = ite _ 1 0) (flagByte_decide _)

/-- Settles O45: SUB and SUBN are the two orders of one difference. -/
theorem subtractionsWithBorrow : Obligations.SubtractionsWithBorrow :=
  ⟨encodedAs_of_mem (by simp [opcodeRows, rowsArith]), encodedAs_of_mem (by simp [opcodeRows, rowsArith]),
    fun s x y => ⟨⟨_, rfl, setVF_sub_spec s x (s.getV x) (s.getV y)⟩,
      ⟨_, rfl, setVF_sub_spec s x (s.getV y) (s.getV x)⟩⟩⟩

/-! ## Shifts -/

/-- Settles O46. -/
theorem shiftRight : Obligations.ShiftRight := by
  refine ⟨encodedAs_of_mem (by simp [opcodeRows, rowsArith]), fun s x y b hb => ?_⟩
  obtain rfl : b = s.shiftOperand x y := hb.trans (s.shiftOperand_eq x y).symm
  exact ⟨_, rfl, setVF_spec s (byte_toNat_shiftRight_one _) (·.toNat = _ % 2) (shiftRightFlag_toNat _)⟩

/-- Settles O47. -/
theorem shiftLeft : Obligations.ShiftLeft := by
  refine ⟨encodedAs_of_mem (by simp [opcodeRows, rowsArith]), fun s x y b hb => ?_⟩
  obtain rfl : b = s.shiftOperand x y := hb.trans (s.shiftOperand_eq x y).symm
  exact ⟨_, rfl, setVF_spec s (byte_toNat_shiftLeft_one _) (·.toNat = _ / 128) (shiftLeftFlag_toNat _)⟩

/-! ## The random draw -/

/-- Settles O48: raising the draw counter leaves the register file that the masked draw was written to. -/
theorem randomIsMasked : Obligations.RandomIsMasked := by
  refine ⟨encodedAs_of_mem (by simp [opcodeRows, rowsHigh]), fun s x nn => ?_⟩
  have hx := s.getV_setV_self x (randomByte s.draws &&& nn)
  have hmasked : randomByte s.draws &&& nn &&& ~~~nn = 0 := by
    rw [BitVec.and_assoc, BitVec.and_not_self]
    exact BitVec.and_zero
  exact ⟨_, rfl, hx, (congrArg (· &&& ~~~nn) hx).trans hmasked, regsSameBut_setV s x _, rfl, rfl, fun _ => rfl⟩

end Sys2Proof.Machine
end

section
/-!
PROOFS. The index and memory family: the index register, the glyph address, and the block stores and loads through I,
each of which checks its whole range first (spec/42_index_and_memory.md R160..R165, spec/20_memory.md R64).
-/

namespace Sys2Proof.Machine

/-! ## Setting the index register -/

/-- R160, R161, R162: what each of the three leaves alone. -/
theorem onlyIndex_withI (s : State) (w : Word) : OnlyIndex s (s.withI w) := ⟨rfl, fun _ => rfl⟩

/-- R161: the 16-bit sum of I and a byte. -/
theorem word_toNat_add_byte (w : Word) (b : Byte) : (w + b.setWidth 16).toNat = (w.toNat + b.toNat) % 65536 := by
  rw [BitVec.toNat_add, BitVec.toNat_setWidth_of_le (by decide)]

/-- Settles O49. -/
theorem setAndAddToIndex : Obligations.SetAndAddToIndex :=
  ⟨encodedAs_of_mem (by simp [opcodeRows, rowsHigh]), encodedAs_of_mem (by simp [opcodeRows, rowsMisc]),
    fun s nnn => ⟨_, rfl, BitVec.toNat_setWidth_of_le (by decide), onlyIndex_withI s _⟩,
    fun s x => ⟨_, rfl, word_toNat_add_byte s.i (s.getV x), onlyIndex_withI s _⟩⟩

theorem State.nibbleOf_val (s : State) (x : Reg) : (s.nibbleOf x).val = (s.getV x).toNat % 16 := by
  rw [State.nibbleOf, Fin.val_mk, BitVec.extractLsb'_toNat, Nat.shiftRight_zero]

/-- R162: the font lies in the reserved region, so that the sum fits the index register. -/
theorem State.glyphAddr_toNat {s : State} (hcfg : s.cfg.wellFormed = true) (x : Reg) :
    (s.glyphAddr x).toNat = s.cfg.fontBase + 5 * ((s.getV x).toNat % 16) := by
  have hfont : s.cfg.fontBase + 80 ≤ 0x200 := Config.fontBase_le hcfg
  have hglyph : fontGlyphBytes = 5 := rfl
  rw [State.glyphAddr, State.nibbleOf_val, hglyph, toNat_ofNat_of_lt (by omega)]

/-- Settles O50. -/
theorem pointAtGlyph : Obligations.PointAtGlyph :=
  ⟨encodedAs_of_mem (by simp [opcodeRows, rowsMisc]),
    fun s x => ⟨_, rfl, onlyIndex_withI s _, fun hcfg => State.glyphAddr_toNat hcfg x⟩⟩

/-! ## Blocks that fit memory and blocks that do not -/

/-- R64: a block with a byte in it that reaches beyond memory fails the check. -/
theorem checkRange_eq_false {a n : Nat} (hn : 0 < n) (h : memSize < a + n) : checkRange a n = false := by
  rw [← Bool.not_eq_true, checkRange_iff]
  omega

section
variable {s : State} {a : Nat}

/-- R54, R64: a block write that fits. -/
theorem State.writeBytes_of_le {bs : List Byte} (hs : MemCanonical s) (h : a + bs.length ≤ memSize) :
    ∃ t, s.writeBytes a bs = some t ∧ (∀ k < bs.length, t.memRead (a + k) = some (bs.getD k 0)) ∧
      MemSameOutside a bs.length s t ∧ t = s.withMem t.mem := by
  obtain ⟨t, hwrite⟩ : ∃ t, s.writeBytes a bs = some t := ⟨_, State.writeBytes_eq_some_iff.mpr ⟨.inr h, rfl⟩⟩
  have hread := State.memRead_of_writeBytes hs hwrite
  refine ⟨t, hwrite, fun k hk => ?_, fun k hk => (hread k).trans (if_neg hk), State.writeBytes_frame hwrite⟩
  rw [hread, if_pos (by omega), Nat.add_sub_cancel_left]

theorem State.writeBytes_of_lt {bs : List Byte} (hbs : 0 < bs.length) (h : memSize < a + bs.length) :
    s.writeBytes a bs = none := if_neg (by simp [checkRange_eq_false hbs h])

/-- R54, R64: a block read that fits. -/
theorem State.readBytes_of_le {n : Nat} (h : a + n ≤ memSize) :
    ∃ bs, s.readBytes a n = some bs ∧ bs.length = n ∧ ∀ k < n, s.memRead (a + k) = some (bs.getD k 0) := by
  refine ⟨_, if_pos ((checkRange_iff a n).mpr (.inr h)), memGetList_length .., fun k hk => ?_⟩
  rw [s.memRead_of_lt (by omega), memGetList_getD _ _ _ _ _ hk]

theorem State.readBytes_of_lt {n : Nat} (hn : 0 < n) (h : memSize < a + n) : s.readBytes a n = none :=
  if_neg (by simp [checkRange_eq_false hn h])

end

/-! ## The decimal digits -/

section
variable {s t : State} {x : Reg}

/-- R163. -/
theorem exec_ldBVx_of_some (h : s.writeBytes s.indexAddr (decimalDigits (s.getV x)) = some t) :
    exec (.ldBVx x) s = .next t := by
  simp only [exec, execLdBVx, h]

/-- R163. -/
theorem exec_ldBVx_of_none (h : s.writeBytes s.indexAddr (decimalDigits (s.getV x)) = none) :
    exec (.ldBVx x) s = .fault (.outOfBoundsAddress s.pc0) := by
  simp only [exec, execLdBVx, h, raise_eq]

end

/-- Settles O51: the block is the three digits, so that its bytes are read one by one. -/
theorem storeDecimalDigits : Obligations.StoreDecimalDigits := by
  refine ⟨encodedAs_of_mem (by simp [opcodeRows, rowsMisc]), fun s x hs hfits => ?_, fun s x hout => ?_⟩
  · obtain ⟨t, hwrite, hread, hsame, hframe⟩ := State.writeBytes_of_le (bs := decimalDigits (s.getV x)) hs hfits
    have hlen : (decimalDigits (s.getV x)).length = 3 := rfl
    exact ⟨t, exec_ldBVx_of_some hwrite, hread 0 (by omega), hread 1 (by omega), hread 2 (by omega), hsame, hframe⟩
  · exact exec_ldBVx_of_none (State.writeBytes_of_lt (Nat.succ_pos _) hout)

/-! ## The index after a register block -/

theorem State.memRead_bumpIndex (s : State) (x : Reg) (a : Nat) : (s.bumpIndex x).memRead a = s.memRead a := by
  rw [State.bumpIndex_frame]
  rfl

/-- R164, R165: after a transfer from `s` to `u` that leaves I and the configuration. A block inside memory ends far
below the range of the index register, so that I does not wrap. -/
theorem State.bumpIndex_toNat {s u : State} {x : Reg} (hi : u.i = s.i) (hcfg : u.cfg = s.cfg)
    (hfits : s.indexAddr + x.val + 1 ≤ memSize) :
    (u.bumpIndex x).i.toNat = if s.cfg.indexInc then s.i.toNat + x.val + 1 else s.i.toNat := by
  have hend : s.i.toNat + x.val + 1 ≤ 4096 := hfits
  rw [State.bumpIndex, hi, hcfg]
  split
  · rw [State.withI_i, BitVec.toNat_add, toNat_ofNat_of_lt (by omega), Nat.mod_eq_of_lt (by omega), Nat.add_assoc]
  · rw [hi]

/-! ## The register block to memory -/

section
variable {s u : State} {x : Reg}

/-- R164. -/
theorem exec_storeRegs_of_some (h : s.writeBytes s.indexAddr (s.getVs (x.val + 1)) = some u) :
    exec (.storeRegs x) s = .next (u.bumpIndex x) := by
  simp only [exec, execStoreRegs, h]

/-- R164. -/
theorem exec_storeRegs_of_none (h : s.writeBytes s.indexAddr (s.getVs (x.val + 1)) = none) :
    exec (.storeRegs x) s = .fault (.outOfBoundsAddress s.pc0) := by
  simp only [exec, execStoreRegs, h, raise_eq]

end

/-- Settles O52: the block has X + 1 bytes, byte k being V[k], and writing it leaves the I that is then advanced. -/
theorem storeRegisterBlock : Obligations.StoreRegisterBlock := by
  have hlen (s : State) (x : Reg) : (s.getVs (x.val + 1)).length = x.val + 1 := s.getVs_length _ x.isLt
  refine ⟨encodedAs_of_mem (by simp [opcodeRows, rowsMisc]), fun s x hs hfits => ?_, fun s x hout => ?_⟩
  · obtain ⟨u, hwrite, hread, hsame, hframe⟩ := State.writeBytes_of_le (bs := s.getVs (x.val + 1)) hs (by rwa [hlen])
    rw [hlen] at hread hsame
    have hexec := exec_storeRegs_of_some hwrite
    refine ⟨_, hexec, fun k hk => ?_, fun a ha => (u.memRead_bumpIndex x a).trans (hsame a ha),
      State.bumpIndex_toNat (congrArg State.i hframe :) (congrArg State.cfg hframe :) hfits,
      exec_differsInWritten hexec⟩
    rw [State.memRead_bumpIndex, hread k.val (by omega), s.getVs_getD _ k (by omega)]
  · exact exec_storeRegs_of_none (State.writeBytes_of_lt (by rw [hlen]; omega) (by rwa [hlen]))

/-! ## The register block from memory -/

section
variable {s : State} {x : Reg}

/-- R165. -/
theorem exec_loadRegs_of_some {bs : List Byte} (h : s.readBytes s.indexAddr (x.val + 1) = some bs) :
    exec (.loadRegs x) s = .next ((s.setVs 0 bs).bumpIndex x) := by
  simp only [exec, execLoadRegs, h]

/-- R165. -/
theorem exec_loadRegs_of_none (h : s.readBytes s.indexAddr (x.val + 1) = none) :
    exec (.loadRegs x) s = .fault (.outOfBoundsAddress s.pc0) := by
  simp only [exec, execLoadRegs, h, raise_eq]

end

/-- Settles O53: the block read has X + 1 bytes, which go to V0..VX and to no register above. -/
theorem loadRegisterBlock : Obligations.LoadRegisterBlock := by
  refine ⟨encodedAs_of_mem (by simp [opcodeRows, rowsMisc]), fun s x hfits => ?_, fun s x hout =>
    exec_loadRegs_of_none (State.readBytes_of_lt (Nat.succ_pos _) hout)⟩
  obtain ⟨bs, hblock, hlen, hread⟩ := State.readBytes_of_le (s := s) (n := x.val + 1) hfits
  have hexec := exec_loadRegs_of_some hblock
  have hframe : (s.setVs 0 bs).bumpIndex x = (s.withV _).withI _ := exec_differsInWritten hexec
  obtain ⟨hget, hregs⟩ := State.setVs_spec bs s 0 (by omega)
  refine ⟨_, hexec, fun k hk => ?_, fun k hk => ?_,
    State.bumpIndex_toNat (congrArg State.i hregs :) (congrArg State.cfg hregs :) hfits, hframe,
    memSame_of_exec hexec (congrArg State.mem hframe :)⟩
  · rw [State.getV_bumpIndex, hget, if_pos (by omega), hread k.val (by omega), Nat.sub_zero]
  · rw [State.getV_bumpIndex, hget, if_neg (by omega)]

end Sys2Proof.Machine
end

section
/-!
PROOFS. The display family: clearing, drawing a sprite pixel by pixel with its collision, the edge policy, and that a
second draw undoes the first (spec/43_display.md R190..R194, spec/20_memory.md R64).
-/

namespace Sys2Proof.Machine

/-! ## Clearing -/

/-- R190. -/
theorem pixelOf_blankDisplay (x y : Nat) : pixelOf blankDisplay x y = false := by
  unfold pixelOf blankDisplay
  split <;> simp

/-- Settles O54. -/
theorem clearScreen : Obligations.ClearScreen :=
  ⟨encodedAs_of_mem (by simp [opcodeRows, rowsLow]), fun _ => ⟨_, rfl, pixelOf_blankDisplay, rfl, fun _ => rfl⟩⟩

/-! ## Where sprite pixels fall -/

/-- Settles O56: pixels of one sprite are less than a screen apart, so that `place_inj` applies. -/
theorem edgePolicy : Obligations.EdgePolicy := by
  refine ⟨fun _ _ => rfl, fun _ _ hx hy => if_pos ⟨hx, hy⟩, fun _ _ hout => if_neg hout, fun _ _ _ => ⟨rfl, rfl⟩, ?_⟩
  intro edge x0 y0 r c r' c' p _ _ hr hr' hc hc' hp hp'
  obtain ⟨hcol, hrow⟩ := place_inj hp hp' (by omega) (by omega) (by omega) (by omega)
  omega

/-! ## The sprite's rows, as they are read -/

section
variable {s : State} {a n : Nat}

/-- R64: an empty block passes the check wherever it stands (log entry 5). -/
theorem State.exists_readBytes (h : n = 0 ∨ a + n ≤ memSize) : ∃ bs, s.readBytes a n = some bs :=
  ⟨_, if_pos ((checkRange_iff a n).mpr h)⟩

/-- R54: whatever block is read, empty ones included, has its length and memory's bytes. -/
theorem State.memRead_of_readBytes {bs : List Byte} (h : s.readBytes a n = some bs) :
    bs.length = n ∧ ∀ k < n, s.memRead (a + k) = some (bs.getD k 0) := by
  obtain ⟨hrange, hread⟩ | ⟨-, hread⟩ := s.readBytes_spec a n <;> rw [hread] at h <;> cases h
  refine ⟨memGetList_length .., fun k hk => ?_⟩
  obtain rfl | hfits := (checkRange_iff a n).mp hrange
  · exact absurd hk k.not_lt_zero
  · rw [s.memRead_of_lt (by omega), memGetList_getD _ _ _ _ _ hk]

end

theorem spriteBit_iff {s : State} {x y : Reg} {n px py : Nat} :
    spriteBit s x y n px py = true ↔ ∃ r < n, ∃ c < 8, ((s.memRead (s.indexAddr + r)).getD 0).getLsbD (7 - c) = true ∧
      place s.cfg.spriteEdge (s.spriteX x + c) (s.spriteY y + r) = some (px, py) := by
  simp only [spriteBit, List.any_eq_true, List.mem_range, Bool.and_eq_true, decide_eq_true_eq]

/-- `spriteBit` reads from memory what `SpriteCovers` says of the rows that were read (R191..R193). -/
theorem spriteBit_iff_spriteCovers {s : State} {n : Nat} {rows : List Byte}
    (hread : s.readBytes s.indexAddr n = some rows) (x y : Reg) (px py : Nat) :
    spriteBit s x y n px py = true ↔
      SpriteCovers s.cfg.spriteEdge (s.spriteX x) (s.spriteY y) rows px py := by
  obtain ⟨hlen, hrows⟩ := State.memRead_of_readBytes hread
  rw [spriteBit_iff]
  constructor
  · rintro ⟨r, hr, c, hc, hbit, hplace⟩
    rw [hrows r hr] at hbit
    exact ⟨r, rows.getD r 0, c, by rw [List.getElem?_eq_getElem (by omega), List.getD_eq_getElem], hc, hbit, hplace⟩
  · rintro ⟨r, row, c, hrow, hc, hbit, hplace⟩
    have hr : r < n := hlen ▸ (List.getElem?_eq_some_iff.mp hrow).1
    refine ⟨r, hr, c, hc, ?_, hplace⟩
    rwa [hrows r hr, List.getD_eq_getElem?_getD, hrow]

/-! ## What drawing does -/

/-- The sprite of height `n` at (V[x], V[y]) has a set bit that falls on a pixel that is on (R192). -/
def SpriteHits (s : State) (x y : Reg) (n : Nat) : Prop :=
  ∃ px py, spriteBit s x y n px py = true ∧ s.pix px py = true

/-- R192: a sprite has at most 15 rows, fewer than the display, so that it covers no pixel twice. -/
theorem State.drawn_spec {s : State} {n : BitVec 4} {rows : List Byte}
    (hread : s.readBytes s.indexAddr n.toNat = some rows) (x y : Reg) :
    (∀ px py, pixelOf (s.drawn x y rows).1 px py = (s.pix px py ^^ spriteBit s x y n.toNat px py)) ∧
    ((s.drawn x y rows).2 = true ↔ SpriteHits s x y n.toNat) := by
  have hn := n.isLt
  obtain ⟨hlen, -⟩ := State.memRead_of_readBytes hread
  obtain ⟨hpix, hhit⟩ :=
    drawRows_spec s.cfg.spriteEdge (s.spriteX x) rows (s.spriteY y) (by omega) (s.display, false)
  simp only [← spriteBit_iff_spriteCovers hread] at hpix hhit
  refine ⟨fun px py => ?_, hhit.trans (or_iff_right Bool.false_ne_true)⟩
  obtain ⟨hflip, hkeep⟩ := hpix px py
  cases hbit : spriteBit s x y n.toNat px py with
  | true => exact (hflip hbit).trans (Bool.xor_true _).symm
  | false => exact (hkeep (by simp [hbit])).trans (Bool.xor_false _).symm

theorem flagByte_eq_one_iff (b : Bool) : flagByte b = 1 ↔ b = true := by cases b <;> decide

theorem flagByte_eq_zero_iff (b : Bool) : flagByte b = 0 ↔ ¬b = true := by cases b <;> decide

section
variable {s t : State} {x y : Reg} {n : BitVec 4}

/-- R192. -/
theorem exec_drw_of_some {rows : List Byte} (h : s.readBytes s.indexAddr n.toNat = some rows) :
    exec (.drw x y n) s =
      .next ((s.withDisplay (s.drawn x y rows).1).setV regF (flagByte (s.drawn x y rows).2)) := by
  simp only [exec, execDrw, h]

/-- R192. -/
theorem exec_drw_of_none (h : s.readBytes s.indexAddr n.toNat = none) :
    exec (.drw x y n) s = .fault (.outOfBoundsAddress s.pc0) := by
  simp only [exec, execDrw, h, raise_eq]

/-- R192: a draw that goes on has read its rows. -/
theorem exists_rows_of_exec_drw (h : exec (.drw x y n) s = .next t) :
    ∃ rows, s.readBytes s.indexAddr n.toNat = some rows ∧
      t = (s.withDisplay (s.drawn x y rows).1).setV regF (flagByte (s.drawn x y rows).2) := by
  cases hread : s.readBytes s.indexAddr n.toNat with
  | none => rw [exec_drw_of_none hread] at h; cases h
  | some rows => rw [exec_drw_of_some hread] at h; cases h; exact ⟨rows, rfl, rfl⟩

variable (h : exec (.drw x y n) s = .next t)
include h

/-- R191, R192. -/
theorem pix_of_exec_drw (px py : Nat) : t.pix px py = (s.pix px py ^^ spriteBit s x y n.toNat px py) := by
  obtain ⟨rows, hread, rfl⟩ := exists_rows_of_exec_drw h
  exact (State.drawn_spec hread x y).1 px py

/-- R192: VF is the collision, written last. -/
theorem flag_of_exec_drw : (t.getV regF = 1 ↔ SpriteHits s x y n.toNat) ∧
    (t.getV regF = 0 ↔ ¬SpriteHits s x y n.toNat) := by
  obtain ⟨rows, hread, rfl⟩ := exists_rows_of_exec_drw h
  rw [State.getV_setV_self, flagByte_eq_one_iff, flagByte_eq_zero_iff, (State.drawn_spec hread x y).2]
  exact ⟨Iff.rfl, Iff.rfl⟩

theorem regsSameBut_of_exec_drw : RegsSameBut [regF] s t := by
  obtain ⟨rows, -, rfl⟩ := exists_rows_of_exec_drw h
  exact regsSameBut_setV (s.withDisplay _) regF _

end

/-- Settles O55: with a block that the check passes, what any draw that goes on does; with any other, the fault. (The
model's own `drawSprite` has the plain name.) -/
theorem drawSprite_holds : Obligations.DrawSprite := by
  refine ⟨encodedAs_of_mem (by simp [opcodeRows, rowsHigh]), fun s x y n hfits => ?_, fun s x y n hn hout => ?_⟩
  · obtain ⟨rows, hread⟩ :=
      State.exists_readBytes (s := s) (hfits.imp_left fun h0 => congrArg BitVec.toNat h0)
    have hexec := exec_drw_of_some (x := x) (y := y) hread
    have hframe := exec_differsInWritten hexec
    obtain ⟨hone, hzero⟩ := flag_of_exec_drw hexec
    exact ⟨_, hexec, pix_of_exec_drw hexec, hone, hzero, regsSameBut_of_exec_drw hexec, hframe,
      memSame_of_exec hexec (congrArg State.mem hframe :)⟩
  · have hpos : 0 < n.toNat := Nat.pos_of_ne_zero fun h0 => hn (BitVec.eq_of_toNat_eq h0)
    exact exec_drw_of_none (State.readBytes_of_lt hpos hout)

/-! ## Drawing twice -/

/-- Where a sprite's bits fall depends on I, the configuration, memory and the two coordinates alone (R191..R193). -/
theorem spriteBit_congr {s u : State} {x y : Reg} (hi : u.i = s.i) (hcfg : u.cfg = s.cfg) (hmem : u.mem = s.mem)
    (hx : u.getV x = s.getV x) (hy : u.getV y = s.getV y) (n px py : Nat) :
    spriteBit u x y n px py = spriteBit s x y n px py := by
  rw [Bool.eq_iff_iff, spriteBit_iff, spriteBit_iff]
  simp only [State.memRead_congr hcfg hmem, State.indexAddr, State.spriteX, State.spriteY, hi, hcfg, hx, hy]

/-- Settles O57: both draws flip the same pixels, and the second finds each of them as the first left it. -/
theorem drawTwiceRestores : Obligations.DrawTwiceRestores := by
  intro s t u w x y n hst hdisp hi hcfg hmem hx hy huw
  have hbit := spriteBit_congr hi hcfg hmem hx hy n.toNat
  have hu (px py : Nat) : u.pix px py = (s.pix px py ^^ spriteBit s x y n.toNat px py) := by
    rw [State.pix, hdisp]
    exact pix_of_exec_drw hst px py
  have hw (px py : Nat) : w.pix px py = s.pix px py := by
    rw [pix_of_exec_drw huw, hu, hbit, Bool.xor_assoc, Bool.xor_self, Bool.xor_false]
  have hhits : SpriteHits u x y n.toNat ↔
      ∃ px py, spriteBit s x y n.toNat px py = true ∧ s.pix px py = false := by
    refine exists₂_congr fun px py => ?_
    rw [hbit, hu]
    exact and_congr_right fun hset => by rw [hset, Bool.xor_true, Bool.not_eq_true']
  obtain ⟨-, hzero⟩ := flag_of_exec_drw hst
  obtain ⟨hone', hzero'⟩ := flag_of_exec_drw huw
  refine ⟨display_ext fun px py _ _ => hw px py, hone'.trans hhits, fun hblank => ⟨hzero.mpr ?_, hzero'.mpr ?_⟩⟩
  · exact fun ⟨px, py, hset, _⟩ => Bool.false_ne_true ((hblank px py).symm.trans hset)
  · exact fun ⟨px, py, hset, _⟩ => Bool.false_ne_true ((hbit px py ▸ hblank px py).symm.trans hset)

end Sys2Proof.Machine
end

section
/-!
PROOFS. The timer and input family: the timer reads and writes, the skips on a key, and the wait for one
(spec/44_timers_and_input.md R210..R215).
-/

namespace Sys2Proof.Machine

/-! ## The lowest pressed key -/

section
variable {s : State} {x : Reg}

/-- R215: two keys, each pressed with every lower key up, are one. -/
theorem State.lowestKey_eq_some {k : Fin 16} (hk : s.key k = true) (hlow : ∀ j : Fin 16, j < k → s.key j = false) :
    s.lowestKey = some k := by
  cases h : s.lowestKey with
  | none => exact absurd ((State.lowestKey_none h k).symm.trans hk) Bool.false_ne_true
  | some j =>
    obtain ⟨hj, hlow'⟩ := State.lowestKey_some h
    have hkj : k ≤ j := not_lt.mp fun hlt => Bool.false_ne_true ((hlow j hlt).symm.trans hj)
    have hjk : j ≤ k := not_lt.mp fun hlt => Bool.false_ne_true ((hlow' k hlt).symm.trans hk)
    rw [le_antisymm hjk hkj]

/-- R215. -/
theorem State.lowestKey_eq_none (hkeys : ∀ k, s.key k = false) : s.lowestKey = none := by
  cases h : s.lowestKey with
  | none => rfl
  | some k =>
    obtain ⟨hk, -⟩ := State.lowestKey_some h
    exact absurd ((hkeys k).symm.trans hk) Bool.false_ne_true

/-- R215: a key number fits a register. -/
theorem byte_toNat_ofNat_key (k : Fin 16) : (BitVec.ofNat 8 k.val).toNat = k.val := by
  rw [BitVec.toNat_ofNat, Nat.mod_eq_of_lt (k.isLt.trans (by decide))]

/-! ## Waiting for a key -/

/-- R215: a pressed key ends the wait. -/
theorem exec_ldVxK_of_some {k : Fin 16} (h : s.lowestKey = some k) :
    exec (.ldVxK x) s = .next ((s.setV x (BitVec.ofNat 8 k.val)).withKw false) := by
  simp only [exec, execLdVxK, h]

/-- R215: the wait goes on. -/
theorem exec_ldVxK_of_none (h : s.lowestKey = none) :
    exec (.ldVxK x) s = .next ((s.withPc s.pc0).withKw true) := by
  simp only [exec, execLdVxK, h]

end

/-- Settles O60: the key of the statement is the one the instruction finds; with no key pressed it finds none. -/
theorem waitForKey : Obligations.WaitForKey := by
  refine ⟨encodedAs_of_mem (by simp [opcodeRows, rowsMisc]), fun s x k hk hlow => ?_, fun s x hkeys => ?_⟩
  · have hx := s.getV_setV_self x (BitVec.ofNat 8 k.val)
    exact ⟨_, exec_ldVxK_of_some (State.lowestKey_eq_some hk hlow),
      (congrArg BitVec.toNat hx).trans (byte_toNat_ofNat_key k), regsSameBut_setV s x _, rfl, rfl, fun _ => rfl⟩
  · exact ⟨_, exec_ldVxK_of_none (State.lowestKey_eq_none hkeys), rfl, rfl, rfl, fun _ => rfl⟩

/-! ## The timers -/

/-- Settles O58. -/
theorem timerInstructions : Obligations.TimerInstructions :=
  ⟨encodedAs_of_mem (by simp [opcodeRows, rowsMisc]), encodedAs_of_mem (by simp [opcodeRows, rowsMisc]),
    encodedAs_of_mem (by simp [opcodeRows, rowsMisc]), fun s x =>
    ⟨⟨_, rfl, s.getV_setV_self x s.dt, onlyRegs_setV s x s.dt⟩, ⟨_, rfl, rfl, rfl, fun _ => rfl⟩,
      ⟨_, rfl, rfl, rfl, fun _ => rfl⟩⟩⟩

/-! ## Skips on a key -/

/-- Settles O59: the key of the statement is the one the low nibble of V[X] names. -/
theorem skipsOnAKey : Obligations.SkipsOnAKey := by
  refine ⟨encodedAs_of_mem (by simp [opcodeRows, rowsHigh]), encodedAs_of_mem (by simp [opcodeRows, rowsHigh]),
    fun s x k hk => ?_⟩
  obtain rfl : s.nibbleOf x = k := Fin.ext ((s.nibbleOf_val x).trans hk.symm)
  exact ⟨skipIf_spec Iff.rfl s, skipIf_spec (iff_of_eq (Bool.not_eq_true' _)) s⟩

end Sys2Proof.Machine
end

section
/-!
PROOFS. The exceptions family, faults: which instructions raise one and when, the fault record, and the tick after a
fault (spec/60_exceptions.md R230..R235).
-/

namespace Sys2Proof.Machine

/-! ## The instructions that fault -/

/-- R230's table for a decoded instruction: when it faults and as what, as a condition on the state it runs in. -/
inductive RaisesFault (s : State) : Instr → Fault → Prop where
  /-- R100. -/
  | ret : s.sp.val = 0 → RaisesFault s .ret (.stackUnderflow s.pc0)
  /-- R102. -/
  | call {nnn : Addr12} : s.sp.val = 16 → RaisesFault s (.call nnn) (.stackOverflow s.pc0)
  /-- R107. -/
  | jpV0 {nnn : Addr12} : memSize ≤ s.jumpTarget nnn → RaisesFault s (.jpV0 nnn) (.outOfBoundsAddress s.pc0)
  /-- R192. -/
  | drw {x y : Reg} {n : BitVec 4} :
    checkRange s.indexAddr n.toNat = false → RaisesFault s (.drw x y n) (.outOfBoundsAddress s.pc0)
  /-- R163. -/
  | ldBVx {x : Reg} : checkRange s.indexAddr 3 = false → RaisesFault s (.ldBVx x) (.outOfBoundsAddress s.pc0)
  /-- R164. -/
  | storeRegs {x : Reg} :
    checkRange s.indexAddr (x.val + 1) = false → RaisesFault s (.storeRegs x) (.outOfBoundsAddress s.pc0)
  /-- R165. -/
  | loadRegs {x : Reg} :
    checkRange s.indexAddr (x.val + 1) = false → RaisesFault s (.loadRegs x) (.outOfBoundsAddress s.pc0)

section
variable {s : State}

theorem State.readBytes_of_not_checkRange {a n : Nat} (h : checkRange a n = false) : s.readBytes a n = none :=
  if_neg (Bool.eq_false_iff.mp h)

theorem State.writeBytes_of_not_checkRange {a : Nat} {bs : List Byte} (h : checkRange a bs.length = false) :
    s.writeBytes a bs = none := if_neg (Bool.eq_false_iff.mp h)

theorem State.getVs_length_succ (s : State) (x : Reg) : (s.getVs (x.val + 1)).length = x.val + 1 :=
  s.getVs_length _ x.isLt

theorem exec_of_raisesFault {i : Instr} {f : Fault} (h : RaisesFault s i f) : exec i s = .fault f := by
  cases h with
  | ret hempty => exact exec_ret_of_empty hempty
  | call hfull => exact exec_call_of_full _ hfull
  | jpV0 hout => exact exec_jpV0_of_le hout
  | drw hout => exact exec_drw_of_none (State.readBytes_of_not_checkRange hout)
  | ldBVx hout => exact exec_ldBVx_of_none (State.writeBytes_of_not_checkRange hout)
  | @storeRegs x hout =>
    exact exec_storeRegs_of_none (State.writeBytes_of_not_checkRange (by rwa [s.getVs_length_succ x]))
  | loadRegs hout => exact exec_loadRegs_of_none (State.readBytes_of_not_checkRange hout)

/-- An instruction goes on, or it faults as R230's table says; none is refused. -/
theorem exec_cases (i : Instr) (s : State) :
    (∃ t, exec i s = .next t) ∨ ∃ f, RaisesFault s i f := by
  cases i
  case ret =>
    obtain hempty | hpos := Nat.eq_zero_or_pos s.sp.val
    · exact .inr ⟨_, .ret hempty⟩
    · exact .inl (exec_ret_of_pos hpos)
  case call nnn =>
    obtain hlt | hfull := Nat.lt_succ_iff_lt_or_eq.mp s.sp.isLt
    · exact .inl (exec_call_of_lt nnn hlt)
    · exact .inr ⟨_, .call hfull⟩
  case jpV0 nnn =>
    obtain hlt | hout := lt_or_ge (s.jumpTarget nnn) memSize
    · exact .inl ⟨_, exec_jpV0_of_lt hlt⟩
    · exact .inr ⟨_, .jpV0 hout⟩
  case drw x y n =>
    obtain ⟨-, hread⟩ | ⟨hout, -⟩ := s.readBytes_spec s.indexAddr n.toNat
    · exact .inl ⟨_, exec_drw_of_some hread⟩
    · exact .inr ⟨_, .drw hout⟩
  case ldBVx x =>
    obtain ⟨-, hwrite⟩ | ⟨hout, -⟩ := s.writeBytes_spec s.indexAddr (decimalDigits (s.getV x))
    · exact .inl ⟨_, exec_ldBVx_of_some hwrite⟩
    · exact .inr ⟨_, .ldBVx hout⟩
  case storeRegs x =>
    obtain ⟨-, hwrite⟩ | ⟨hout, -⟩ := s.writeBytes_spec s.indexAddr (s.getVs (x.val + 1))
    · exact .inl ⟨_, exec_storeRegs_of_some hwrite⟩
    · exact .inr ⟨_, .storeRegs (by rwa [s.getVs_length_succ x] at hout)⟩
  case loadRegs x =>
    obtain ⟨-, hread⟩ | ⟨hout, -⟩ := s.readBytes_spec s.indexAddr (x.val + 1)
    · exact .inl ⟨_, exec_loadRegs_of_some hread⟩
    · exact .inr ⟨_, .loadRegs hout⟩
  case ldVxK x =>
    cases hkey : s.lowestKey with
    | some k => exact .inl ⟨_, exec_ldVxK_of_some hkey⟩
    | none => exact .inl ⟨_, exec_ldVxK_of_none hkey⟩
  all_goals exact .inl ⟨_, rfl⟩

theorem exec_fault_iff {i : Instr} {f : Fault} : exec i s = .fault f ↔ RaisesFault s i f := by
  refine ⟨fun h => ?_, exec_of_raisesFault⟩
  obtain ⟨t, hnext⟩ | ⟨g, hraises⟩ := exec_cases i s
  · cases hnext.symm.trans h
  · cases (exec_of_raisesFault hraises).symm.trans h
    exact hraises

theorem exec_ne_refused (i : Instr) (s : State) (r : Refusal) : exec i s ≠ .refused r := by
  intro h
  obtain ⟨t, hnext⟩ | ⟨f, hraises⟩ := exec_cases i s
  · cases hnext.symm.trans h
  · cases (exec_of_raisesFault hraises).symm.trans h

end

/-- Settles O16: R230's table names seven instructions, each with its kind, and pc0 is PC - 2. -/
theorem onlyListedInstructionsFault : Obligations.OnlyListedInstructionsFault := by
  refine ⟨fun i s f h => ?_, exec_ne_refused⟩
  cases exec_fault_iff.mp h with
  | ret => exact .inl ⟨rfl, rfl⟩
  | call => exact .inr (.inl ⟨_, rfl, rfl⟩)
  | jpV0 => exact .inr (.inr ⟨.inl ⟨_, rfl⟩, rfl⟩)
  | drw => exact .inr (.inr ⟨.inr (.inl ⟨_, _, _, rfl⟩), rfl⟩)
  | ldBVx => exact .inr (.inr ⟨.inr (.inr (.inl ⟨_, rfl⟩)), rfl⟩)
  | storeRegs => exact .inr (.inr ⟨.inr (.inr (.inr (.inl ⟨_, rfl⟩))), rfl⟩)
  | loadRegs => exact .inr (.inr ⟨.inr (.inr (.inr (.inr ⟨_, rfl⟩))), rfl⟩)

/-! ## The fault record -/

/-- R231: a step's fault is its cycle's. -/
theorem cycle_of_step_fault {s : State} {f : Fault} (h : step s = .fault f) : cycle s.enterTick = .fault f := by
  unfold step at h
  cases hcycle : cycle s.enterTick <;> rw [hcycle] at h <;> cases h
  rfl

/-- Settles O10: entering a tick leaves PC, and a tick's fault is precise. -/
theorem faultRecordNamesTheInstruction : Obligations.FaultRecordNamesTheInstruction := by
  refine ⟨fun s f => faultPc_of_cycle, fun s f h => ?_, fun s f h => ?_⟩
  · have hpc : s.enterTick.pc = s.pc := (congrArg State.pc s.enterTick_frame :)
    exact (faultPc_of_cycle (cycle_of_step_fault h)).trans hpc
  · obtain ⟨_, _, _, _, hpc⟩ := faultsArePrecise s f h
    exact hpc

/-! ## The cycles of a tick, by induction -/

theorem cycle_next {s t : State} (h : cycle s = .next t) :
    ∃ op i, s.fetch = some op ∧ decode op = .ok i ∧ exec i s.advance = .next t := by
  obtain ⟨-, hcycle⟩ | ⟨op, hfetch, ⟨e, -, hcycle⟩ | ⟨i, hdecode, hcycle⟩⟩ := cycle_cases s
  · cases hcycle.symm.trans h
  · cases hcycle.symm.trans h
  · exact ⟨op, i, hfetch, hdecode, hcycle.symm.trans h⟩

/-- What every cycle that goes on keeps, the cycles of a tick keep: one that faults leaves the state before it. -/
theorem runCycles_keeps {P : State → Prop} (hcycle : ∀ s t, P s → cycle s = .next t → P t) (n : Nat) {s : State}
    (hs : P s) : P (runCycles n s).1 := by
  induction n generalizing s with
  | zero => exact hs
  | succ n ih =>
    cases h : cycle s with
    | next t => rw [runCycles_succ_of_next n h]; exact ih (hcycle s t hs h)
    | fault f => rwa [runCycles_succ_of_fault n h]
    | refused r => rwa [runCycles_succ_of_refused n h]

section
variable {s t : State} (h : cycle s = .next t)
include h

/-- R33. -/
theorem cycle_cfg : t.cfg = s.cfg := by
  obtain ⟨_, _, _, _, hexec⟩ := cycle_next h
  exact (exec_cfg hexec :)

/-- R30. -/
theorem cycle_keys : t.keys = s.keys := by
  obtain ⟨_, _, _, _, hexec⟩ := cycle_next h
  exact (exec_keys hexec :)

theorem cycle_cyclesLeft : t.cyclesLeft = s.cyclesLeft := by
  obtain ⟨_, _, _, _, hexec⟩ := cycle_next h
  exact (exec_cyclesLeft hexec :)

end

section
variable (s : State)

/-- R33. -/
theorem hostTick_cfg : (hostTick s).1.cfg = s.cfg :=
  runCycles_keeps (P := (·.cfg = s.cfg)) (fun _ _ hcfg h => (cycle_cfg h).trans hcfg) _ rfl

/-- R241. -/
theorem hostTick_keys : (hostTick s).1.keys = s.keys :=
  runCycles_keeps (P := (·.keys = s.keys)) (fun _ _ hkeys h => (cycle_keys h).trans hkeys) _ rfl

/-- Log entry 2. -/
theorem hostTick_cyclesLeft : (hostTick s).1.cyclesLeft = s.cyclesLeft :=
  runCycles_keeps (P := (·.cyclesLeft = s.cyclesLeft)) (fun _ _ hleft h => (cycle_cyclesLeft h).trans hleft) _ rfl

end

/-! ## The tick after a fault -/

/-- The state with what entering a tick sets (R237): both timers and the tick's loop counter. -/
def State.withTick (s : State) (dt st : Byte) (n : Nat) : State := ((s.withDt dt).withSt st).withCyclesLeft n

theorem State.timerDecrement_eq_withTick (s : State) :
    s.timerDecrement = s.withTick (timerTick s.dt) (timerTick s.st) s.cyclesLeft := rfl

theorem State.withCyclesLeft_eq_withTick (s : State) (n : Nat) : s.withCyclesLeft n = s.withTick s.dt s.st n := rfl

section
variable {s : State} {f : Fault} {dt st : Byte} {n : Nat}

theorem State.fetch_withTick : (s.withTick dt st n).fetch = s.fetch := State.fetch_congr rfl rfl rfl

/-- No condition of R230's table speaks of what entering a tick sets. -/
theorem RaisesFault.withTick {i : Instr} (h : RaisesFault s i f) : RaisesFault (s.withTick dt st n) i f := by
  cases h with
  | ret hempty => exact .ret hempty
  | call hfull => exact .call hfull
  | jpV0 hout => exact .jpV0 hout
  | drw hout => exact .drw hout
  | ldBVx hout => exact .ldBVx hout
  | storeRegs hout => exact .storeRegs hout
  | loadRegs hout => exact .loadRegs hout

theorem cycle_withTick_of_fault (h : cycle s = .fault f) : cycle (s.withTick dt st n) = .fault f := by
  obtain ⟨hfetch, hcycle⟩ | ⟨op, hfetch, ⟨e, hdecode, hcycle⟩ | ⟨i, hdecode, hcycle⟩⟩ := cycle_cases s <;>
    rw [hcycle] at h
  · cases h
    exact cycle_of_fetch_none (State.fetch_withTick.trans hfetch)
  · cases h
    exact cycle_of_decode_error (State.fetch_withTick.trans hfetch) hdecode
  · rw [cycle_of_decode_ok (State.fetch_withTick.trans hfetch) hdecode]
    exact exec_of_raisesFault (exec_fault_iff.mp h).withTick

end

/-- Settles O12: the first cycle of the next tick is the faulting one again, and the timers do not matter to it. -/
theorem nextTickRetriesTheFault : Obligations.NextTickRetriesTheFault := by
  intro s f h
  obtain ⟨k, hk, -, hcycle, -⟩ := faultsArePrecise s f h
  have hbudget : 1 ≤ (hostTick s).1.cfg.cyclesPerTick := hostTick_cfg s ▸ Nat.one_le_of_lt hk
  obtain ⟨n, hn⟩ := Nat.exists_eq_add_of_le' hbudget
  rw [hostTick, hn, State.timerDecrement_eq_withTick]
  exact runCycles_succ_of_fault n (cycle_withTick_of_fault hcycle)

end Sys2Proof.Machine
end

section
/-!
PROOFS. The exceptions family, the host boundary: the steps of one tick are `tick()`, the timer decrement, the queries
and the input vector, and the invariants across the host's operations (spec/60_exceptions.md R237..R242,
spec/70_reset_and_hazards.md R270..R273).
-/

namespace Sys2Proof.Machine

/-! ## The tick's loop counter is read by no instruction -/

section
variable (s : State) (n : Nat)

theorem logicResult_withCyclesLeft (x : Reg) (b : Byte) :
    logicResult x b (s.withCyclesLeft n) = (logicResult x b s).withCyclesLeft n := by
  unfold logicResult
  rw [apply_ite (State.withCyclesLeft · n)]
  rfl

theorem State.bumpIndex_withCyclesLeft (x : Reg) :
    (s.withCyclesLeft n).bumpIndex x = (s.bumpIndex x).withCyclesLeft n := by
  unfold State.bumpIndex
  rw [apply_ite (State.withCyclesLeft · n)]
  rfl

theorem State.setVs_withCyclesLeft (k : Nat) (bs : List Byte) :
    (s.withCyclesLeft n).setVs k bs = (s.setVs k bs).withCyclesLeft n := by
  induction bs generalizing s k with
  | nil => rfl
  | cons b bs ih =>
    unfold State.setVs
    split
    · next hk => exact ih (s.setV ⟨k, hk⟩ b) (k + 1)
    · rfl

end

section
variable {s t : State} {n : Nat}

theorem State.writeBytes_withCyclesLeft {a : Nat} {bs : List Byte} (h : s.writeBytes a bs = some t) :
    (s.withCyclesLeft n).writeBytes a bs = some (t.withCyclesLeft n) := by
  obtain ⟨hfits, rfl⟩ := State.writeBytes_eq_some_iff.mp h
  exact State.writeBytes_eq_some_iff.mpr ⟨hfits, rfl⟩

theorem skipIf_withCyclesLeft {c : Bool} (h : skipIf c s = .next t) :
    skipIf c (s.withCyclesLeft n) = .next (t.withCyclesLeft n) := by
  cases c <;> (cases h; rfl)

/-- An instruction that goes on does so whatever the counter holds, and leaves it there (log entry 2). -/
theorem exec_withCyclesLeft_of_next {i : Instr} (h : exec i s = .next t) :
    exec i (s.withCyclesLeft n) = .next (t.withCyclesLeft n) := by
  cases i
  case ret =>
    obtain ⟨_, hpos, hpop⟩ | ⟨_, hpop⟩ := s.pop_spec <;> simp only [exec, execRet, hpop] at h <;> cases h
    have hpop' : (s.withCyclesLeft n).pop = some (_, _) := dif_pos hpos
    simp only [exec, execRet, hpop']
    rfl
  case call nnn =>
    obtain ⟨hlt, hpush⟩ | ⟨_, hpush⟩ := s.push_spec s.pc <;> simp only [exec, execCall, hpush] at h <;> cases h
    have hpush' : (s.withCyclesLeft n).push s.pc = some _ := dif_pos hlt
    simp only [exec, execCall, State.withCyclesLeft_pc, hpush']
    rfl
  case jpV0 nnn =>
    obtain hlt | hout := lt_or_ge (s.jumpTarget nnn) memSize
    · rw [exec_jpV0_next h]
      exact exec_jpV0_of_lt hlt
    · cases (exec_jpV0_of_le hout).symm.trans h
  case seImm | sneImm | seReg | sneReg | skp | sknp => exact skipIf_withCyclesLeft h
  case orReg | andReg | xorReg => cases h; exact congrArg Host.Outcome.next (logicResult_withCyclesLeft ..)
  case drw =>
    obtain ⟨rows, hread, rfl⟩ := exists_rows_of_exec_drw h
    exact exec_drw_of_some hread
  case ldVxK =>
    cases hkey : s.lowestKey with
    | some k => cases (exec_ldVxK_of_some hkey).symm.trans h; exact exec_ldVxK_of_some hkey
    | none => cases (exec_ldVxK_of_none hkey).symm.trans h; exact exec_ldVxK_of_none hkey
  case ldBVx => exact exec_ldBVx_of_some (State.writeBytes_withCyclesLeft (exec_ldBVx_writeBytes h))
  case storeRegs x =>
    obtain ⟨u, hwrite, rfl⟩ := exec_storeRegs_writeBytes h
    rw [← State.bumpIndex_withCyclesLeft]
    exact exec_storeRegs_of_some (State.writeBytes_withCyclesLeft hwrite)
  case loadRegs x =>
    obtain ⟨-, hread⟩ | ⟨-, hread⟩ := s.readBytes_spec s.indexAddr (x.val + 1)
    · cases (exec_loadRegs_of_some hread).symm.trans h
      rw [← State.bumpIndex_withCyclesLeft, ← State.setVs_withCyclesLeft]
      exact exec_loadRegs_of_some hread
    · cases (exec_loadRegs_of_none hread).symm.trans h
  all_goals cases h; rfl

theorem cycle_withCyclesLeft_of_next (h : cycle s = .next t) :
    cycle (s.withCyclesLeft n) = .next (t.withCyclesLeft n) := by
  obtain ⟨op, i, hfetch, hdecode, hexec⟩ := cycle_next h
  have hfetch' : (s.withCyclesLeft n).fetch = some op := State.fetch_withTick.trans hfetch
  rw [cycle_of_decode_ok hfetch' hdecode]
  exact exec_withCyclesLeft_of_next hexec

theorem cycle_ne_refused (s : State) (r : Refusal) : cycle s ≠ .refused r := by
  obtain ⟨-, hcycle⟩ | ⟨op, -, ⟨e, -, hcycle⟩ | ⟨i, -, hcycle⟩⟩ := cycle_cases s <;> rw [hcycle]
  · nofun
  · nofun
  · exact exec_ne_refused i s.advance r

/-! ## The steps of one tick -/

/-- R237: inside a tick a step is one cycle, and uses one of those left. -/
theorem step_of_cycle_next (n : Nat) (h : cycle s = .next t) :
    step (s.withCyclesLeft (n + 1)) = .next (t.withCyclesLeft n) := by
  rw [step, State.enterTick_of_ne_zero (Nat.succ_ne_zero n), cycle_withCyclesLeft_of_next h]
  rfl

theorem step_of_cycle_fault (n : Nat) {f : Fault} (h : cycle s = .fault f) :
    step (s.withCyclesLeft (n + 1)) = .fault f := by
  rw [step, State.enterTick_of_ne_zero (Nat.succ_ne_zero n), State.withCyclesLeft_eq_withTick,
    cycle_withTick_of_fault h]
  rfl

end

section
variable {M : Host.Core} {s t : M.State}

theorem run_succ_of_next (n : Nat) (h : M.step s = .next t) : M.run (n + 1) s = M.run n t := by
  rw [Host.Core.run, h]

theorem run_succ_of_fault (n : Nat) {f : M.Fault} (h : M.step s = .fault f) : M.run (n + 1) s = .fault f := by
  rw [Host.Core.run, h]

theorem run_succ_congr (n : Nat) (h : M.step s = M.step t) : M.run (n + 1) s = M.run (n + 1) t := by
  simp only [Host.Core.run, h]

end

/-- What the steps of a tick answer, from the state its cycles leave and what they answer: where all of them go on, that
state with the counter used up. -/
def stepsOutcome : State × Host.Outcome Unit Fault Refusal → Host.Outcome State Fault Refusal
  | (t, .next ()) => .next (t.withCyclesLeft 0)
  | (_, .fault f) => .fault f
  | (_, .refused r) => .refused r

section
variable {p : State × Host.Outcome Unit Fault Refusal}

theorem stepsOutcome_eq_next_iff (hleft : p.1.cyclesLeft = 0) {t : State} :
    stepsOutcome p = .next t ↔ p = (t, .next ()) := by
  obtain ⟨u, o⟩ := p
  have hu : u.withCyclesLeft 0 = u := by rw [← hleft]; rfl
  cases o <;> simp [stepsOutcome, hu]

theorem stepsOutcome_eq_fault_iff {f : Fault} : stepsOutcome p = .fault f ↔ p.2 = .fault f := by
  obtain ⟨u, o⟩ := p
  cases o <;> simp [stepsOutcome]

end

/-- R237: as many steps as there are cycles left run those cycles. -/
theorem run_withCyclesLeft (n : Nat) (s : State) :
    core.run n (s.withCyclesLeft n) = stepsOutcome (runCycles n s) := by
  induction n generalizing s with
  | zero => rfl
  | succ n ih =>
    cases h : cycle s with
    | next t => rw [run_succ_of_next (M := core) n (step_of_cycle_next n h), ih, runCycles_succ_of_next n h]
    | fault f => rw [run_succ_of_fault (M := core) n (step_of_cycle_fault n h), runCycles_succ_of_fault n h]; rfl
    | refused r => exact absurd h (cycle_ne_refused s r)

/-- R237: the first step of a tick makes the timer decrement and sets the budget. -/
theorem step_of_between {s : State} (hbetween : s.cyclesLeft = 0) (hbudget : s.cfg.cyclesPerTick ≠ 0) :
    step s = step (s.timerDecrement.withCyclesLeft s.cfg.cyclesPerTick) := by
  rw [step, step, State.enterTick_of_zero hbetween, State.enterTick_of_ne_zero hbudget]

theorem run_eq_stepsOutcome {s : State} (hbetween : s.cyclesLeft = 0) (hbudget : 1 ≤ s.cfg.cyclesPerTick) :
    core.run s.cfg.cyclesPerTick s = stepsOutcome (hostTick s) := by
  rw [hostTick, ← run_withCyclesLeft]
  obtain ⟨n, hn⟩ := Nat.exists_eq_add_of_le' hbudget
  have hstep := step_of_between hbetween (by omega)
  rw [hn] at hstep ⊢
  exact run_succ_congr (M := core) n hstep

/-- Settles O13: the steps answer what the tick does, and the counter that they use up was 0 before. -/
theorem tickIsItsSteps : Obligations.TickIsItsSteps := by
  intro s hbetween hbudget
  have hleft : (hostTick s).1.cyclesLeft = 0 := (hostTick_cyclesLeft s).trans hbetween
  rw [run_eq_stepsOutcome hbetween hbudget]
  exact ⟨fun _ => (stepsOutcome_eq_next_iff hleft).symm, fun _ => stepsOutcome_eq_fault_iff.symm⟩

/-! ## The timers, the queries and the input vector -/

/-- Settles O14: each timer's new value is the truncated predecessor of the old one. -/
theorem timerDecrementRule : Obligations.TimerDecrementRule := by
  intro s
  have hdt : s.timerDecrement.dt.toNat = s.dt.toNat - 1 := timerTick_toNat s.dt
  have hst : s.timerDecrement.st.toNat = s.st.toNat - 1 := timerTick_toNat s.st
  exact ⟨by omega, by omega, by omega, by omega, rfl, fun _ => rfl, rfl⟩

/-- Settles O23: only the last clause speaks of instructions, none of which writes the input vector. -/
theorem hostQueriesAndInput : Obligations.HostQueriesAndInput := fun s =>
  ⟨decide_eq_true_iff, rfl, rfl, fun _ _ hx hy => if_pos ⟨hx, hy⟩, fun _ _ hout => if_neg hout,
    fun _ => ⟨fun _ => rfl, rfl, fun _ => rfl⟩, hostTick_keys s⟩

/-! ## The invariants across the host's operations -/

/-- R6. -/
theorem Config.one_le_cyclesPerTick {c : Config} (h : c.wellFormed = true) : 1 ≤ c.cyclesPerTick := by
  obtain ⟨hcycles, -⟩ := Bool.and_eq_true_iff.mp h
  exact of_decide_eq_true hcycles

/-- R270, R271: what creation and load leave: no return address is held and KW is off. -/
theorem goodState_of_fresh {s : State} (hmem : MemCanonical s) (hpc : s.pc.toNat ≤ 0x1002) (hsp : s.sp = 0)
    (hkw : s.kw = false) (hcfg : ConfigOk s) : GoodState s := by
  have hreturns : ReturnsBounded s := fun k hk => absurd hk (by simp [hsp])
  exact ⟨hmem, ⟨hpc, hreturns⟩, fun hset => absurd (hkw.symm.trans hset) Bool.false_ne_true, hcfg⟩

theorem goodState_created {cfg : Config} (hcfg : cfg.wellFormed = true) : GoodState (created cfg) :=
  goodState_of_fresh rfl (Nat.zero_le _) rfl rfl ⟨hcfg, rfl, Nat.zero_le _⟩

section
variable {s t : State} (hs : GoodState s)
include hs

/-- R271. -/
theorem GoodState.loaded {rom : List Byte} (hrom : romWellFormed rom = true) : GoodState (s.loaded rom) := by
  obtain ⟨-, -, -, hcfg, -⟩ := hs
  have hfits : loadAddr + rom.length ≤ memSize := Nat.add_le_add_left (of_decide_eq_true hrom) loadAddr
  exact goodState_of_fresh (memWf_romCells s.cfg.fontBase rom loadAddr hfits) (show 0x200 ≤ 0x1002 by decide) rfl rfl
    ⟨hcfg, hrom, Nat.zero_le _⟩

/-- R271, R272: a load that fails changes nothing. -/
theorem GoodState.hostLoad (rom : List Byte) : GoodState (hostLoad s rom).1 := by
  unfold Machine.hostLoad
  split
  · next hrom => exact hs.loaded hrom
  · exact hs

theorem GoodState.withCyclesLeft {n : Nat} (hn : n ≤ s.cfg.cyclesPerTick) : GoodState (s.withCyclesLeft n) := by
  obtain ⟨hmem, hpc, hkw, hcfg⟩ := hs
  exact ⟨hmem, hpc, hkw, hcfg.withCyclesLeft hn⟩

theorem GoodState.step_next (h : step s = .next t) : GoodState t := by
  obtain ⟨hmem, hpc, hkw, hcfg⟩ := hs
  exact ⟨stepKeepsMemoryCanonical s t hmem h, stepKeepsPcBounded s t hpc h, stepKeepsKeyWaitAtInstruction s t hkw h,
    stepKeepsConfigOk s t hcfg h⟩

/-- A cycle is a step with one cycle left of the budget, so that what every step keeps, every cycle keeps. -/
theorem GoodState.cycle_next (h : cycle s = .next t) : GoodState t := by
  have ⟨_, _, _, hwf, _, hleft⟩ := hs
  have hbudget : 1 ≤ s.cfg.cyclesPerTick := Config.one_le_cyclesPerTick hwf
  have hused : GoodState (t.withCyclesLeft 0) := (hs.withCyclesLeft hbudget).step_next (step_of_cycle_next 0 h)
  rw [← cycle_cyclesLeft h, ← cycle_cfg h] at hleft
  exact hused.withCyclesLeft hleft

/-- R237: the timer decrement touches nothing the invariants speak of. -/
theorem GoodState.hostTick : GoodState (hostTick s).1 :=
  have hdecrement : GoodState s.timerDecrement := hs
  runCycles_keeps (fun _ _ hgood h => hgood.cycle_next h) _ hdecrement

end

/-- Settles O31: reset is a load of ROMBUF, and no invariant speaks of the input vector. -/
theorem hostOperationsKeepGoodState : Obligations.HostOperationsKeepGoodState :=
  ⟨fun _ => goodState_created, fun s hs => ⟨hs.hostLoad, hs.hostLoad s.romBuf, fun _ => hs, hs.hostTick⟩⟩

end Sys2Proof.Machine
end

section
/-!
PROOFS. Creation, load and reset: what each leaves in every component, and the tick of a Machine never loaded
(spec/70_reset_and_hazards.md R270..R274).
-/

namespace Sys2Proof.Machine

/-! ## What creation and load clear -/

/-- R270: the configuration and PC are none of the components that `Cleared` speaks of. -/
theorem cleared_created (cfg : Config) : Cleared (created cfg) := cleared_reset

/-- R271: nor are memory, ROMBUF and the draw counter. -/
theorem cleared_loaded (s : State) (rom : List Byte) : Cleared (s.loaded rom) := cleared_reset

/-! ## Load -/

section
variable (s : State) {rom : List Byte}

/-- R272. -/
theorem hostLoad_of_large (hrom : maxRom < rom.length) : hostLoad s rom = (s, some .romTooLarge) :=
  if_neg fun hfits => absurd (of_decide_eq_true hfits) hrom.not_ge

/-- R271. -/
theorem memRead_loaded (hrom : rom.length ≤ maxRom) {a : Nat} (ha : a < memSize) :
    (s.loaded rom).memRead a = some (if loadAddr ≤ a ∧ a < loadAddr + rom.length then rom.getD (a - loadAddr) 0
      else fontOrZero s.cfg.fontBase a) := by
  rw [← memRead_hostLoad s hrom ha, hostLoad_of_fits s hrom]

/-- R271: byte k of the ROM stands k bytes above the load address. -/
theorem memRead_loaded_rom (hrom : rom.length ≤ maxRom) {k : Nat} (hk : k < rom.length) :
    (s.loaded rom).memRead (loadAddr + k) = rom[k]? := by
  have hinside : loadAddr + k < memSize := Nat.add_lt_add_left (hk.trans_le hrom) loadAddr
  rw [memRead_loaded s hrom hinside, if_pos (by omega), Nat.add_sub_cancel_left, List.getD_eq_getElem _ _ hk,
    List.getElem?_eq_getElem hk]

end

/-- Settles O18: a ROM that fits is copied over a memory of font and zeros, and every component that `Cleared` speaks of
is that of the reset state. -/
theorem loadInitialisesTheMachine : Obligations.LoadInitialisesTheMachine :=
  ⟨fun s _ => hostLoad_of_large s, fun s rom hrom =>
    ⟨s.loaded rom, hostLoad_of_fits s hrom, cleared_loaded s rom, rfl, rfl, rfl, rfl, fun _ => memRead_loaded s hrom⟩⟩

/-- Settles O19: the length test of `load` is exact on both sides. -/
theorem loadRefusesALargeRom : Obligations.LoadRefusesALargeRom := fun s _ =>
  ⟨hostLoad_of_large s, fun hrom => congrArg Prod.snd (hostLoad_of_fits s hrom)⟩

/-! ## Reset -/

/-- R273. -/
theorem hostReset_of_fits {s : State} (hrom : s.romBuf.length ≤ maxRom) : hostReset s = s.loaded s.romBuf :=
  congrArg Prod.fst (hostLoad_of_fits s hrom)

/-- Settles O20: a resident ROM fits, so reset is the load that succeeds; before any load the ROM has no byte to copy. -/
theorem resetReloadsTheRom : Obligations.ResetReloadsTheRom := by
  refine ⟨fun s hrom => ?_, fun cfg a ha => ?_⟩
  · rw [hostReset_of_fits hrom]
    exact ⟨hostLoad_of_fits s hrom, rfl, rfl, fun k => memRead_loaded_rom s hrom⟩
  · have hnocell : (hostReset (created cfg)).mem = [] := rfl
    exact State.memRead_of_mem_nil hnocell ha

/-! ## A tick before any load -/

/-- R81, R237: a tick whose first cycle faults leaves what the timer decrement left. -/
theorem hostTick_of_first_cycle_fault {s : State} {f : Fault} (hbudget : 1 ≤ s.cfg.cyclesPerTick)
    (h : cycle s.timerDecrement = .fault f) : hostTick s = (s.timerDecrement, .fault f) := by
  obtain ⟨n, hn⟩ := Nat.exists_eq_add_of_le' hbudget
  rw [hostTick, hn, runCycles_succ_of_fault n h]

/-- R75, R270: the word at address 0 is zero, which is no opcode. -/
theorem cycle_created_default : cycle (created Config.default) = .fault (.unknownOpcode 0) := by
  have hfetch : (created Config.default).fetch = some 0x0000 := rfl
  exact cycle_of_unknownWord hfetch (unknownWord_of_lt (by decide) (by decide) (by decide))

/-- Settles O17: no cell is listed, both timers stay at zero, and the first cycle faults at PC 0. -/
theorem creationState : Obligations.CreationState := by
  refine ⟨fun cfg => ⟨cleared_created cfg, rfl, rfl, rfl, fun _ => State.memRead_of_mem_nil rfl⟩, ?_⟩
  have htimers : (created Config.default).timerDecrement = created Config.default := rfl
  rw [hostTick_of_first_cycle_fault (by decide) (htimers ▸ cycle_created_default), htimers]

end Sys2Proof.Machine
end
